-- ==== Sys2Proof/Word.lean ====
section
/-! DEFINITION. The word of the machine and the widths of its fields (spec/00_scope.md section 4, section 5). -/

namespace Sys2Proof

/-- A register, a memory cell, an instruction and an address are all one 16-bit pattern (00_scope.md section 4). -/
abbrev Word := BitVec 16

/-- A console byte (10_state.md R22). -/
abbrev Byte := BitVec 8

/-- A register number: a 3-bit field, so that every encodable number names a register (10_state.md R10). -/
abbrev Reg := BitVec 3

end Sys2Proof
end

