-- ==== Sys2Proof/Syntax.lean ====
section
/-! DEFINITION. The instructions: one constructor for each of the 25 rows of spec/opcode_table.json, in the table's order
(30_encoding.md R60). A field is a bit vector of the width the encoding gives it. -/

namespace Sys2Proof

/-- An instruction form. The bits a form ignores (30_encoding.md R61) are no part of it. -/
inductive Instr where
  | br (nzp : BitVec 3) (off : BitVec 9)
  | addReg (dr sr1 sr2 : Reg)
  | addImm (dr sr1 : Reg) (imm : BitVec 5)
  | ld (dr : Reg) (off : BitVec 9)
  | st (sr : Reg) (off : BitVec 9)
  | jsr (off : BitVec 11)
  | jsrr (base : Reg)
  | andReg (dr sr1 sr2 : Reg)
  | andImm (dr sr1 : Reg) (imm : BitVec 5)
  | ldr (dr base : Reg) (off : BitVec 6)
  | str (sr base : Reg) (off : BitVec 6)
  | rti
  | notReg (dr sr : Reg)
  | ldi (dr : Reg) (off : BitVec 9)
  | sti (sr : Reg) (off : BitVec 9)
  | jmp (base : Reg)
  | res
  | lea (dr : Reg) (off : BitVec 9)
  | trapGetc
  | trapOut
  | trapPuts
  | trapIn
  | trapPutsp
  | trapHalt
  /-- TRAP with a vector that is none of the six (45_trap.md R127) -/
  | trap (vec : BitVec 8)
  deriving DecidableEq, Repr

/-- The sixteen opcodes (30_encoding.md R51). Opcode 0x4 is `jsr`, both of its forms. -/
inductive Opcode where
  | br | add | ld | st | jsr | and | ldr | str | rti | not | ldi | sti | jmp | res | lea | trap
  deriving DecidableEq, Repr

/-- The opcode an instruction form belongs to (30_encoding.md R60). -/
def Instr.opcode : Instr → Opcode
  | .br _ _ => .br
  | .addReg _ _ _ => .add
  | .addImm _ _ _ => .add
  | .ld _ _ => .ld
  | .st _ _ => .st
  | .jsr _ => .jsr
  | .jsrr _ => .jsr
  | .andReg _ _ _ => .and
  | .andImm _ _ _ => .and
  | .ldr _ _ _ => .ldr
  | .str _ _ _ => .str
  | .rti => .rti
  | .notReg _ _ => .not
  | .ldi _ _ => .ldi
  | .sti _ _ => .sti
  | .jmp _ => .jmp
  | .res => .res
  | .lea _ _ => .lea
  | .trapGetc => .trap
  | .trapOut => .trap
  | .trapPuts => .trap
  | .trapIn => .trap
  | .trapPutsp => .trap
  | .trapHalt => .trap
  | .trap _ => .trap

end Sys2Proof
end

