-- ==== Sys2Proof/WellFormed.lean ====
section
/-! DEFINITION. Which instruction terms stand for instruction words. The widths of the fields leave one check: the general
TRAP row is a fallback, so its vector is none of the six that have a row of their own (45_trap.md R120, R127). -/

namespace Sys2Proof

/-- The vectors with no routine: 0x00 to 0x1F and 0x26 to 0xFF (45_trap.md R127). -/
def undefinedVector (v : BitVec 8) : Bool :=
  decide (v.toNat < 0x20) || decide (0x25 < v.toNat)

/-- The well-formed instructions. -/
def Instr.wf : Instr → Bool
  | .br _ _ => true
  | .addReg _ _ _ => true
  | .addImm _ _ _ => true
  | .ld _ _ => true
  | .st _ _ => true
  | .jsr _ => true
  | .jsrr _ => true
  | .andReg _ _ _ => true
  | .andImm _ _ _ => true
  | .ldr _ _ _ => true
  | .str _ _ _ => true
  | .rti => true
  | .notReg _ _ => true
  | .ldi _ _ => true
  | .sti _ _ => true
  | .jmp _ => true
  | .res => true
  | .lea _ _ => true
  | .trapGetc => true
  | .trapOut => true
  | .trapPuts => true
  | .trapIn => true
  | .trapPutsp => true
  | .trapHalt => true
  | .trap v => undefinedVector v

end Sys2Proof
end

