-- ==== Sys2Proof/Decode.lean ====
section
/-! DEFINITION. The instruction decoder and the encoder (30_encoding.md). Every one of the 65,536 words decodes (R62): no
word is rejected here, and the three fatal kinds decode to `rti`, `res` and `trap`, whose meanings raise the fault. The
opcode numbers but 0x8 and 0xD, the field positions and the six vector numbers are the spec's own from general knowledge
(K2, K3, K5; log entry 12). -/

namespace Sys2Proof

/-- The opcode map: entry `n` is the opcode whose number is `n` (R51). -/
def opcodeMap : Vector Opcode 16 :=
  #v[.br, .add, .ld, .st, .jsr, .and, .ldr, .str, .rti, .not, .ldi, .sti, .jmp, .res, .lea, .trap]

/-- The number of an opcode (R51). -/
def Opcode.number : Opcode → BitVec 4
  | .br => 0x0#4
  | .add => 0x1#4
  | .ld => 0x2#4
  | .st => 0x3#4
  | .jsr => 0x4#4
  | .and => 0x5#4
  | .ldr => 0x6#4
  | .str => 0x7#4
  | .rti => 0x8#4
  | .not => 0x9#4
  | .ldi => 0xA#4
  | .sti => 0xB#4
  | .jmp => 0xC#4
  | .res => 0xD#4
  | .lea => 0xE#4
  | .trap => 0xF#4

/-! ### The fields of a word -/

/-- `instr[15:12]` as an opcode (R50). -/
def opcodeOf (w : Word) : Opcode :=
  opcodeMap[(w.extractLsb' 12 4).toNat]'(w.extractLsb' 12 4).isLt

/-- `instr[11:9]`: DR, the SR of a store, and the condition bits of BR (R52, R58). -/
def fieldHigh (w : Word) : BitVec 3 := w.extractLsb' 9 3

/-- `instr[8:6]`: SR1, the SR of NOT, and BaseR (R52). -/
def fieldMid (w : Word) : BitVec 3 := w.extractLsb' 6 3

/-- `instr[2:0]`: SR2 (R52). -/
def fieldLow (w : Word) : BitVec 3 := w.extractLsb' 0 3

/-- `instr[5]`: the immediate flag of ADD and AND (R53). -/
def immFlag (w : Word) : Bool := w.getLsbD 5

/-- `instr[11]`: the long-jump flag of opcode 0x4 (R57). -/
def longFlag (w : Word) : Bool := w.getLsbD 11

/-- `instr[4:0]` (R54). -/
def fieldImm5 (w : Word) : BitVec 5 := w.extractLsb' 0 5

/-- `instr[5:0]` (R55). -/
def fieldOff6 (w : Word) : BitVec 6 := w.extractLsb' 0 6

/-- `instr[8:0]` (R56). -/
def fieldOff9 (w : Word) : BitVec 9 := w.extractLsb' 0 9

/-- `instr[10:0]`: 11 bits, never 10 (R57, D2). -/
def fieldOff11 (w : Word) : BitVec 11 := w.extractLsb' 0 11

/-- `instr[7:0]` (R59). -/
def fieldVec8 (w : Word) : BitVec 8 := w.extractLsb' 0 8

/-! ### Decoding -/

/-- The rows of the trap table, the six vectors first and the fallback last (45_trap.md R120, R128). -/
def decodeTrap (v : BitVec 8) : Instr :=
  if v = 0x20#8 then .trapGetc
  else if v = 0x21#8 then .trapOut
  else if v = 0x22#8 then .trapPuts
  else if v = 0x23#8 then .trapIn
  else if v = 0x24#8 then .trapPutsp
  else if v = 0x25#8 then .trapHalt
  else .trap v

/-- The instruction a word stands for; it depends on the word alone (R64, 40_fetch_execute.md R72). -/
def decode (w : Word) : Instr :=
  match opcodeOf w with
  | .br => .br (fieldHigh w) (fieldOff9 w)
  | .add => if immFlag w then .addImm (fieldHigh w) (fieldMid w) (fieldImm5 w)
            else .addReg (fieldHigh w) (fieldMid w) (fieldLow w)
  | .ld => .ld (fieldHigh w) (fieldOff9 w)
  | .st => .st (fieldHigh w) (fieldOff9 w)
  | .jsr => if longFlag w then .jsr (fieldOff11 w) else .jsrr (fieldMid w)
  | .and => if immFlag w then .andImm (fieldHigh w) (fieldMid w) (fieldImm5 w)
            else .andReg (fieldHigh w) (fieldMid w) (fieldLow w)
  | .ldr => .ldr (fieldHigh w) (fieldMid w) (fieldOff6 w)
  | .str => .str (fieldHigh w) (fieldMid w) (fieldOff6 w)
  | .rti => .rti
  | .not => .notReg (fieldHigh w) (fieldMid w)
  | .ldi => .ldi (fieldHigh w) (fieldOff9 w)
  | .sti => .sti (fieldHigh w) (fieldOff9 w)
  | .jmp => .jmp (fieldMid w)
  | .res => .res
  | .lea => .lea (fieldHigh w) (fieldOff9 w)
  | .trap => decodeTrap (fieldVec8 w)

/-! ### Encoding -/

/-- The layout `oooodddsssxxxxxx` (R60). -/
def layoutRegs (o : Opcode) (a b : BitVec 3) (c : BitVec 6) : Word :=
  (o.number ++ a ++ b ++ c : BitVec (4 + 3 + 3 + 6))

/-- The layout `oooodddxxxxxxxxx` (R60). -/
def layoutOff9 (o : Opcode) (a : BitVec 3) (c : BitVec 9) : Word :=
  (o.number ++ a ++ c : BitVec (4 + 3 + 9))

/-- The layout `oooofxxxxxxxxxxx` of opcode 0x4 (R60). -/
def layoutJump (o : Opcode) (f : BitVec 1) (c : BitVec 11) : Word :=
  (o.number ++ f ++ c : BitVec (4 + 1 + 11))

/-- The layout `oooo----vvvvvvvv` (R60). -/
def layoutVec (o : Opcode) (v : BitVec 8) : Word :=
  (o.number ++ 0#4 ++ v : BitVec (4 + 4 + 8))

/-- The word of an instruction. An ignored bit is written 0, but for the six low bits of NOT, written 1, as the
conventional assembler does (R60 closing note, R66, K9). -/
def encode : Instr → Word
  | .br nzp off => layoutOff9 .br nzp off
  | .addReg dr sr1 sr2 => layoutRegs .add dr sr1 (0#3 ++ sr2 : BitVec (3 + 3))
  | .addImm dr sr1 imm => layoutRegs .add dr sr1 (1#1 ++ imm : BitVec (1 + 5))
  | .ld dr off => layoutOff9 .ld dr off
  | .st sr off => layoutOff9 .st sr off
  | .jsr off => layoutJump .jsr 1#1 off
  | .jsrr base => layoutRegs .jsr 0#3 base 0#6
  | .andReg dr sr1 sr2 => layoutRegs .and dr sr1 (0#3 ++ sr2 : BitVec (3 + 3))
  | .andImm dr sr1 imm => layoutRegs .and dr sr1 (1#1 ++ imm : BitVec (1 + 5))
  | .ldr dr base off => layoutRegs .ldr dr base off
  | .str sr base off => layoutRegs .str sr base off
  | .rti => layoutVec .rti 0#8
  | .notReg dr sr => layoutRegs .not dr sr 0x3F#6
  | .ldi dr off => layoutOff9 .ldi dr off
  | .sti sr off => layoutOff9 .sti sr off
  | .jmp base => layoutRegs .jmp 0#3 base 0#6
  | .res => layoutVec .res 0#8
  | .lea dr off => layoutOff9 .lea dr off
  | .trapGetc => layoutVec .trap 0x20#8
  | .trapOut => layoutVec .trap 0x21#8
  | .trapPuts => layoutVec .trap 0x22#8
  | .trapIn => layoutVec .trap 0x23#8
  | .trapPutsp => layoutVec .trap 0x24#8
  | .trapHalt => layoutVec .trap 0x25#8
  | .trap v => layoutVec .trap v

/-- The instruction the decoder reads from a word given as the opcode table numbers its bits: one 16-bit word (R50); the
bits above `nbits` are 0, and a number that does not fit in 16 bits is no instruction. -/
def decodeTableWord (nbits w : Nat) : Option Instr :=
  if w % 2 ^ nbits < 65536 then some (decode (BitVec.ofNat 16 (w % 2 ^ nbits))) else none

end Sys2Proof
end

