-- ==== Sys2Proof/Config.lean ====
section
/-! DEFINITION. What is fixed for one machine: the defaults of the spec's launch parameters (92_eei_decisions.md, "Open
parameters, gathered") and the free values that stand for the environment's choices (log entries 4, 5, 6, 7, 8). -/

namespace Sys2Proof

/-- The parameter `CONSOLE_EOF`: what a blocking read does when the input stream has ended (10_state.md R24, D14). -/
inductive ConsoleEof where
  /-- the step has no successor -/
  | stuck
  /-- the routine stores this word in `x[0]`, and IN echoes its low byte -/
  | value (w : Word)
  deriving DecidableEq, Repr

namespace Config

/-- `PC_RESET`, default 0x3000 (70_reset_and_hazards.md R161, D8; log entry 4). -/
def pcReset : Word := 0x3000#16

/-- `CONSOLE_EOF`, default `stuck` (D14; log entry 8). -/
def consoleEof : ConsoleEof := .stuck

/-- `IN_PROMPT`, default the 19 bytes `Enter a character: ` (45_trap.md R124, D17, K7; log entry 8). -/
def inPrompt : List Byte :=
  [0x45#8, 0x6E#8, 0x74#8, 0x65#8, 0x72#8, 0x20#8, 0x61#8, 0x20#8, 0x63#8, 0x68#8, 0x61#8, 0x72#8,
   0x61#8, 0x63#8, 0x74#8, 0x65#8, 0x72#8, 0x3A#8, 0x20#8]

/-- FREE VALUE: how many polls in a row find a byte, from poll number `n` on, before one that finds none; `none` where
every one of them does (10_state.md R23, 70_reset_and_hazards.md R173: an environment choice). Every sequence of answers is
given by its runs in this way (log entry 7). -/
opaque readyRun : Nat → Option Nat

/-- FREE VALUE: how many bytes of `KBD_IN` in a row are not 0x00, from byte number `n` on, before one that is; `none` where
none ever is (10_state.md R22: the bytes belong to the environment). Every sequence of bytes is given by these runs and
by `charCode` in this way (log entry 6). -/
opaque zeroRun : Nat → Option Nat

/-- FREE VALUE: one less than the value of byte number `n` of `KBD_IN`, where it is not 0x00 (log entry 6). -/
opaque charCode : Nat → Fin 255

end Config
end Sys2Proof
end

