-- ==== Sys2Proof/Machine/State.lean ====
section
/-! DEFINITION. The state of the machine (10_state.md section 1), the ways a step can have no successor, and the state at
reset (10_state.md R28). INVENTORY.md, under State, lists every field with its rule. -/

namespace Sys2Proof.Machine

/-- The run state `RUN` (10_state.md R17). -/
inductive RunState where
  | running
  | halted
  | faulted
  deriving DecidableEq, Repr

/-- The cause of a decode fault (60_exceptions.md R140). -/
inductive FaultCause where
  | reservedOpcode
  | unimplementedOpcode
  | undefinedTrapVector
  deriving DecidableEq, Repr

/-- An event of `CON_OUT` (10_state.md R22, R25, R26). -/
inductive ConEvent where
  | put (b : Byte)
  | flush
  deriving DecidableEq, Repr

/-- Memory: the words at the listed addresses, addresses strictly rising, no listed word 0x0000; an unlisted address
holds 0x0000, its reset content (10_state.md R21, R28). Cells are words since the hardware addresses no byte
(20_memory.md R39, R40; log entry 1). -/
abbrev Memory := List (Nat × Word)

/-- The state of the machine. -/
structure State where
  /-- `x[0]` to `x[7]` (10_state.md R10) -/
  regs : Vector Word 8
  /-- the address of the next instruction to fetch (10_state.md R12) -/
  pc : Word
  /-- `COND`: N, Z, P from bit 2 down to bit 0 (10_state.md R13) -/
  cond : BitVec 3
  /-- `MEM`, the cells of KBSR and KBDR among them (10_state.md R21, 20_memory.md R30, R32) -/
  mem : Memory
  /-- `RUN` (10_state.md R17) -/
  run : RunState
  /-- `FAULT_CAUSE`; `none` where none is recorded (10_state.md R19) -/
  faultCause : Option FaultCause
  /-- `FAULT_INSTR`; `none` where none is recorded (10_state.md R19) -/
  faultInstr : Option Word
  /-- the instruction latch `instr`; what it holds between steps is not architectural (10_state.md R20; log entry 3) -/
  instr : Word
  /-- `KBD_IN`: the next bytes the host will deliver, oldest first (10_state.md R22; log entry 6) -/
  kbdIn : List Byte
  /-- whether `KBD_IN` ends after the listed bytes; if not, free values follow (log entry 6) -/
  kbdEnded : Bool
  /-- how many bytes of `KBD_IN` have been consumed: the index of a free byte (log entry 6) -/
  kbdTaken : Nat
  /-- for the next polls, oldest first, whether the host has a byte available at that moment (10_state.md R23;
  log entry 7) -/
  pollAnswers : List Bool
  /-- how many polls have happened: the index of a free answer (log entry 7) -/
  pollsDone : Nat
  /-- `CON_OUT`, oldest first (10_state.md R22) -/
  conOut : List ConEvent
  /-- the launch parameter `IN_PROMPT`; no step changes it (45_trap.md R124, D17; log entry 8) -/
  inPrompt : List Byte
  /-- the launch parameter `CONSOLE_EOF`; no step changes it (10_state.md R24, D14; log entry 8) -/
  consoleEof : ConsoleEof
  deriving DecidableEq, Repr

/-- Why a step has no successor. Each is SAFE: the model stops where the hardware stops or never completes the step. -/
inductive Fault where
  /-- Raised by `step` when `RUN` is HALTED: no step is enabled (40_fetch_execute.md R76). Safe. -/
  | halted
  /-- Raised by `step` when `RUN` is FAULTED: no step is enabled (40_fetch_execute.md R76). Safe. -/
  | faulted
  /-- Raised by TRAP GETC and TRAP IN when `KBD_IN` has ended and `CONSOLE_EOF` is `stuck`: the blocking read waits for
  ever (10_state.md R24). It carries `CON_OUT` as it stands while the step waits, so that IN's prompt is seen
  (45_trap.md R124 corner case (c)). Safe. -/
  | inputNeverComes (conOut : List ConEvent)
  /-- Raised by TRAP PUTS and TRAP PUTSP when the loop of the routine never reads a zero word: the step never completes
  (45_trap.md R123 corner case (g), 93_implementation_defined.md U13). Safe: it is raised only then (log entry 10). -/
  | stringNeverEnds
  deriving DecidableEq, Repr

/-- Why the model gives an instruction no meaning. -/
inductive Refusal where
  /-- Raised by an arm of `exec` whose instruction has no meaning yet. Safe. No arm does: every instruction has one. -/
  | notModelled (mnemonic : String)
  deriving DecidableEq, Repr

/-- What a step, and the meaning of an instruction, answers. -/
abbrev Result := Host.Outcome State Fault Refusal

/-- The machine right after reset, before the loader writes `IMAGE` (10_state.md R28, 70_reset_and_hazards.md R160). The
values of `pc` and of the launch parameters are the spec's defaults (log entries 4, 5, 8); the latch, the input
stream and the poll answers have no reset value in the spec (log entries 3, 6, 7). -/
def State.reset : State where
  regs := Vector.replicate 8 0x0000#16
  pc := Config.pcReset
  cond := 0b000#3
  mem := []
  run := .running
  faultCause := none
  faultInstr := none
  instr := 0x0000#16
  kbdIn := []
  kbdEnded := false
  kbdTaken := 0
  pollAnswers := []
  pollsDone := 0
  conOut := []
  inPrompt := Config.inPrompt
  consoleEof := Config.consoleEof

end Sys2Proof.Machine
end

