-- ==== Sys2Proof/Machine/Ops.lean ====
section
/-! DEFINITION. The operations every meaning is written over: the general registers, memory_interface with its one read
side effect (20_memory.md), the console (10_state.md section 8), the decode fault (60_exceptions.md R141) and the fetch
(40_fetch_execute.md R70, R71). There is no return from an exception to write: a decode fault is final and RTI is itself
fatal (60_exceptions.md R142, R148). -/

namespace Sys2Proof.Machine

/-! ### Registers -/

/-- `x[r]` (10_state.md R10). No register is hardwired (R11). -/
def State.reg (s : State) (r : Reg) : Word := s.regs[r.toNat]'r.isLt

/-- `x[r] <- v` (10_state.md R10). -/
def State.setReg (s : State) (r : Reg) (v : Word) : State :=
  { s with regs := s.regs.set r.toNat v r.isLt }

/-- `pc <- target` (10_state.md R12). -/
def State.setPc (s : State) (target : Word) : State := { s with pc := target }

/-! ### Bytes and words -/

/-- `zext_16(b)` (00_scope.md R3). -/
def zext16 (b : Byte) : Word := b.setWidth 16

/-- `w[7:0]`. -/
def lowByte (w : Word) : Byte := w.extractLsb' 0 8

/-- `w[15:8]`. -/
def highByte (w : Word) : Byte := w.extractLsb' 8 8

/-! ### Storage cells -/

/-- The content of cell `a`. -/
def Memory.get : Memory → Nat → Word
  | [], _ => 0x0000#16
  | (k, v) :: rest, a => if k = a then v else Memory.get rest a

/-- List `v` at `a`, in the place of the address order. -/
def Memory.insert : Memory → Nat → Word → Memory
  | [], a, v => [(a, v)]
  | (k, w) :: rest, a, v =>
    if a < k then (a, v) :: (k, w) :: rest
    else if a = k then (a, v) :: rest
    else (k, w) :: Memory.insert rest a v

/-- Put `v` in cell `a`, keeping the canonical form: 0x0000, what an unlisted cell holds, is never listed. -/
def Memory.set (m : Memory) (a : Nat) (v : Word) : Memory :=
  if v = 0x0000#16 then m.filter (fun c => c.1 ≠ a) else Memory.insert m a v

/-- The canonical form: addresses strictly rising and below 65,536, and no cell listed with its reset content. -/
abbrev Memory.wf (m : Memory) : Prop :=
  m.Pairwise (fun c d => c.1 < d.1) ∧ ∀ c ∈ m, c.1 < 65536 ∧ c.2 ≠ 0x0000#16

/-- `MEM[a]`, the cell itself, with no read side effect. -/
def State.cell (s : State) (a : Word) : Word := Memory.get s.mem a.toNat

/-- `MEM[a] <- v`, the cell itself. -/
def State.setCell (s : State) (a v : Word) : State := { s with mem := Memory.set s.mem a.toNat v }

/-! ### The environment, where the state lists nothing -/

/-- The first marked number at or after `i`, where the marks are given by their runs: from `start` on, `run start`
unmarked numbers come before the next marked one, or no marked one ever comes. `fuel` bounds the runs passed. -/
def nextMark (run : Nat → Option Nat) : Nat → Nat → Nat → Option Nat
  | 0, _, _ => none
  | fuel + 1, start, i =>
    match run start with
    | none => none
    | some r => if i ≤ start + r then some (start + r) else nextMark run fuel (start + r + 1) i

/-- The first poll at or after number `i` that finds no byte, among those for which the state lists no answer; `none`
where every one finds a byte (log entry 7). A run passed takes at least one number, so `i + 1` runs reach `i`. -/
def nextSilence (i : Nat) : Option Nat := nextMark Config.readyRun (i + 1) 0 i

/-- The free answer to poll number `i` (log entry 7). -/
def freeAnswer (i : Nat) : Bool := decide (nextSilence i ≠ some i)

/-- The first byte 0x00 at or after number `i`, among the bytes the state does not list; `none` where there is none
(log entry 6). -/
def nextZero (i : Nat) : Option Nat := nextMark Config.zeroRun (i + 1) 0 i

/-- The free byte number `i` (log entry 6). -/
def freeByte (i : Nat) : Byte := if nextZero i = some i then 0x00#8 else BitVec.ofNat 8 (Config.charCode i + 1)

/-! ### The console -/

/-- The next byte of `KBD_IN`, consumed; `none` where the stream has ended (10_state.md R22, log entry 6). -/
def State.nextByte (s : State) : Option (Byte × State) :=
  match s.kbdIn with
  | b :: rest => some (b, { s with kbdIn := rest, kbdTaken := s.kbdTaken + 1 })
  | [] =>
    if s.kbdEnded then none
    else some (freeByte s.kbdTaken, { s with kbdTaken := s.kbdTaken + 1 })

/-- The environment's answer to the next poll: is a byte available at this moment (10_state.md R23, log entry 7)? -/
def State.pollNow (s : State) : Bool :=
  match s.pollAnswers with
  | a :: _ => a
  | [] => freeAnswer s.pollsDone

/-- The poll has been answered. -/
def State.polled (s : State) : State :=
  { s with pollAnswers := s.pollAnswers.tail, pollsDone := s.pollsDone + 1 }

/-- `ConsolePoll()` (10_state.md R23): `some b`, with `b` consumed, when the host has a byte available, else `none`. -/
def State.consolePoll (s : State) : Option Byte × State :=
  match s.polled.nextByte with
  | none => (none, s.polled)
  | some (b, t) => if s.pollNow then (some b, t) else (none, s.polled)

/-- `ConsoleGet()` (10_state.md R24), as the word the routine stores: the next byte extended with zeros; after the end
of the stream what `CONSOLE_EOF` says, `none` where that is to wait for ever. -/
def State.consoleGet (s : State) : Option (Word × State) :=
  match s.nextByte with
  | some (b, t) => some (zext16 b, t)
  | none =>
    match s.consoleEof with
    | .stuck => none
    | .value w => some (w, s)

/-- `ConsolePut(b)` (10_state.md R25). -/
def State.consolePut (s : State) (b : Byte) : State := { s with conOut := s.conOut ++ [.put b] }

/-- `ConsolePut` of each byte in order. -/
def State.consolePutAll (s : State) (bs : List Byte) : State :=
  { s with conOut := s.conOut ++ bs.map .put }

/-- `ConsoleFlush()` (10_state.md R26). -/
def State.consoleFlush (s : State) : State := { s with conOut := s.conOut ++ [.flush] }

/-! ### memory_interface -/

/-- `KBSR_ADDR` (20_memory.md R32; the number is the spec's own, D7, log entry 12). -/
def kbsrAddr : Word := 0xFE00#16

/-- `KBDR_ADDR` (20_memory.md R32; the number is the spec's own, D7, log entry 12). -/
def kbdrAddr : Word := 0xFE02#16

/-- The side effect of a read of `KBSR_ADDR`: poll and latch the answer in the two device cells (20_memory.md R33,
R34). -/
def State.pollStatus (s : State) : State :=
  match s.consolePoll with
  | (some b, t) => (t.setCell kbsrAddr 0x8000#16).setCell kbdrAddr (zext16 b)
  | (none, t) => t.setCell kbsrAddr 0x0000#16

/-- What a read of `a` does to the state: a poll at `KBSR_ADDR`, nothing anywhere else (20_memory.md R33, R35). -/
def State.afterRead (s : State) (a : Word) : State :=
  if a = kbsrAddr then s.pollStatus else s

/-- The word `MemRead(a, 1)` returns: the cell after the side effect, so a read of `KBSR_ADDR` returns what the poll has
just stored (20_memory.md R33, D15). -/
def State.memRead (s : State) (a : Word) : Word := (s.afterRead a).cell a

/-- `MemWrite(a, 1, v)`: an ordinary write at every address, the two device addresses included (20_memory.md R36,
R37). -/
def State.memWrite (s : State) (a v : Word) : State := s.setCell a v

/-! ### The decode fault -/

/-- `raise DecodeFault(cause, instr)` (60_exceptions.md R141): it latches the cause and the instruction word and stops
the loop; nothing else. -/
def State.raiseDecodeFault (s : State) (c : FaultCause) : State :=
  { s with faultCause := some c, faultInstr := some s.instr, run := .faulted }

/-- The cause code (60_exceptions.md R140). -/
def FaultCause.code : FaultCause → Nat
  | .reservedOpcode => 1
  | .unimplementedOpcode => 2
  | .undefinedTrapVector => 3

/-- `RUN <- HALTED` (10_state.md R18). -/
def State.halt (s : State) : State := { s with run := .halted }

/-! ### Fetch -/

/-- The fetch and the increment: `instr <- MemRead(pc, 1)`, then `pc <- pc + 1` (40_fetch_execute.md R70, R71). -/
def State.fetch (s : State) : State :=
  { s.afterRead s.pc with instr := s.memRead s.pc, pc := s.pc + 0x0001#16 }

/-- The state whose next step runs the word `w`: it is stored where the fetch reads, `RUN` is RUNNING, and a `pc` at
`KBSR_ADDR`, where no stored word is ever executed (40_fetch_execute.md R78), is moved to the default load point. -/
def State.placeForFetch (s : State) (w : Word) : State :=
  let at' := if s.pc = kbsrAddr then Config.pcReset else s.pc
  ({ s with run := .running, pc := at' }).setCell at' w

end Sys2Proof.Machine
end

