-- ==== Sys2Proof/Machine/Flags.lean ====
section
/-! DEFINITION. condition_flag_updater (10_state.md R13 to R16). The bit encoding is the spec's own (D5, K4; log
entry 12). -/

namespace Sys2Proof.Machine

/-- POSITIVE (10_state.md R13). -/
def flagP : BitVec 3 := 0b001#3

/-- ZERO (10_state.md R13). -/
def flagZ : BitVec 3 := 0b010#3

/-- NEGATIVE (10_state.md R13). -/
def flagN : BitVec 3 := 0b100#3

/-- The flag of a 16-bit result (10_state.md R14). -/
def flagOf (v : Word) : BitVec 3 :=
  if v.getLsbD 15 then flagN else if v = 0x0000#16 then flagZ else flagP

/-- `SetCC(v)` (10_state.md R14). -/
def State.setCC (s : State) (v : Word) : State := { s with cond := flagOf v }

/-- `x[dr] <- v`, then `SetCC(x[dr])`: how each of the seven flag-setting opcodes ends (10_state.md R15,
40_fetch_execute.md R73). -/
def State.writeResult (s : State) (dr : Reg) (v : Word) : State :=
  let t := s.setReg dr v
  t.setCC (t.reg dr)

/-- BR's test: `(instr[11:9] & COND) != 0b000`, a bitwise AND (42_control.md R90, 30_encoding.md R58). -/
def State.condTest (s : State) (nzp : BitVec 3) : Bool := decide (nzp &&& s.cond ≠ 0b000#3)

end Sys2Proof.Machine
end

