-- ==== Sys2Proof/Machine/Operands.lean ====
section
/-! DEFINITION. The four ways to form an operand value or address, and no others (43_load.md R104). Every sum is modulo
65536 (00_scope.md R4), no offset is scaled, and no mode changes a register. -/

namespace Sys2Proof.Machine

/-- `sext_N` of an `N`-bit field (00_scope.md R1). -/
def sext {n : Nat} (f : BitVec n) : Word := f.signExtend 16

/-- Immediate: `sext_5(imm5)` (R104, 30_encoding.md R54). -/
def immediate (imm : BitVec 5) : Word := sext imm

/-- PC-relative with a 9-bit offset; inside an instruction `pc` is the incremented one (R104, 10_state.md R12). -/
def State.pcRel9 (s : State) (off : BitVec 9) : Word := s.pc + sext off

/-- PC-relative with an 11-bit offset, for JSR (R104, 42_control.md R92). -/
def State.pcRel11 (s : State) (off : BitVec 11) : Word := s.pc + sext off

/-- Base plus offset (R104, 30_encoding.md R55). -/
def State.baseOff6 (s : State) (base : Reg) (off : BitVec 6) : Word := s.reg base + sext off

/-- Indirect: the address is the word read at the PC-relative address; that read may poll (R104, 43_load.md R101). -/
def State.indirect9 (s : State) (off : BitVec 9) : Word := s.memRead (s.pcRel9 off)

/-- The state after the pointer of an indirect access has been read. -/
def State.afterPointer (s : State) (off : BitVec 9) : State := s.afterRead (s.pcRel9 off)

end Sys2Proof.Machine
end

