-- ==== Sys2Proof/Machine/Alu.lean ====
section
/-! DEFINITION. ADD, AND and NOT (41_alu.md). None touches memory, changes `pc` or can raise an exception. -/

namespace Sys2Proof.Machine

/-- ADD, register form (R80). -/
def execAddReg (dr sr1 sr2 : Reg) (s : State) : Result :=
  .next (s.writeResult dr (s.reg sr1 + s.reg sr2))

/-- ADD, immediate form (R80). -/
def execAddImm (dr sr1 : Reg) (imm : BitVec 5) (s : State) : Result :=
  .next (s.writeResult dr (s.reg sr1 + immediate imm))

/-- AND, register form (R81). -/
def execAndReg (dr sr1 sr2 : Reg) (s : State) : Result :=
  .next (s.writeResult dr (s.reg sr1 &&& s.reg sr2))

/-- AND, immediate form (R81). -/
def execAndImm (dr sr1 : Reg) (imm : BitVec 5) (s : State) : Result :=
  .next (s.writeResult dr (s.reg sr1 &&& immediate imm))

/-- NOT (R82). -/
def execNotReg (dr sr : Reg) (s : State) : Result :=
  .next (s.writeResult dr (~~~ (s.reg sr)))

end Sys2Proof.Machine
end

