-- ==== Sys2Proof/Machine/Control.lean ====
section
/-! DEFINITION. BR, JMP, JSR and JSRR (42_control.md). `pc` is the incremented one on entry; none of them writes COND,
touches memory or can raise an exception. -/

namespace Sys2Proof.Machine

/-- BR (R90). -/
def execBr (nzp : BitVec 3) (off : BitVec 9) (s : State) : Result :=
  .next (if s.condTest nzp then s.setPc (s.pcRel9 off) else s)

/-- JMP (R91). -/
def execJmp (base : Reg) (s : State) : Result :=
  .next (s.setPc (s.reg base))

/-- The link register, `x[7]` (10_state.md R11, R94). -/
def linkReg : Reg := 7#3

/-- JSR (R92). -/
def execJsr (off : BitVec 11) (s : State) : Result :=
  .next ((s.setReg linkReg s.pc).setPc (s.pcRel11 off))

/-- JSRR: the link is written first and the base is read after it, so that `JSRR R7` goes to the next instruction (R93,
D19). -/
def execJsrr (base : Reg) (s : State) : Result :=
  let t := s.setReg linkReg s.pc
  .next (t.setPc (t.reg base))

end Sys2Proof.Machine
end

