-- ==== Sys2Proof/Machine/Fatal.lean ====
section
/-! DEFINITION. The fatal opcodes RES and RTI (46_reserved.md). Each takes the decode fault: a next state with `RUN`
FAULTED, in which no step is enabled. -/

namespace Sys2Proof.Machine

/-- RES, opcode 0xD (R135). -/
def execRes (s : State) : Result := .next (s.raiseDecodeFault .reservedOpcode)

/-- RTI, opcode 0x8: it returns from nothing (R136). -/
def execRti (s : State) : Result := .next (s.raiseDecodeFault .unimplementedOpcode)

end Sys2Proof.Machine
end

