-- ==== Sys2Proof/Machine/Load.lean ====
section
/-! DEFINITION. LD, LDI, LDR and LEA (43_load.md). Each writes DR and sets COND from it; a read at `KBSR_ADDR` polls. -/

namespace Sys2Proof.Machine

/-- `x[dr] <- MemRead(ea, 1)`, then `SetCC(x[dr])`. -/
def State.loadFrom (s : State) (dr : Reg) (ea : Word) : State :=
  (s.afterRead ea).writeResult dr (s.memRead ea)

/-- LD (R100). -/
def execLd (dr : Reg) (off : BitVec 9) (s : State) : Result :=
  .next (s.loadFrom dr (s.pcRel9 off))

/-- LDI: the pointer is read first, then the data (R101). -/
def execLdi (dr : Reg) (off : BitVec 9) (s : State) : Result :=
  .next ((s.afterPointer off).loadFrom dr (s.indirect9 off))

/-- LDR: the address is formed from the base before DR is written (R102). -/
def execLdr (dr base : Reg) (off : BitVec 6) (s : State) : Result :=
  .next (s.loadFrom dr (s.baseOff6 base off))

/-- LEA: the address itself; no memory access, and it does set the flags (R103). -/
def execLea (dr : Reg) (off : BitVec 9) (s : State) : Result :=
  .next (s.writeResult dr (s.pcRel9 off))

end Sys2Proof.Machine
end

