-- ==== Sys2Proof/Machine/Store.lean ====
section
/-! DEFINITION. ST, STI and STR (44_store.md). No store writes a register, `pc` or COND. -/

namespace Sys2Proof.Machine

/-- ST (R110). -/
def execSt (sr : Reg) (off : BitVec 9) (s : State) : Result :=
  .next (s.memWrite (s.pcRel9 off) (s.reg sr))

/-- STI: one read of the pointer, then one write (R111). -/
def execSti (sr : Reg) (off : BitVec 9) (s : State) : Result :=
  .next ((s.afterPointer off).memWrite (s.indirect9 off) (s.reg sr))

/-- STR (R112). -/
def execStr (sr base : Reg) (off : BitVec 6) (s : State) : Result :=
  .next (s.memWrite (s.baseOff6 base off) (s.reg sr))

end Sys2Proof.Machine
end

