-- ==== Sys2Proof/Machine/Trap.lean ====
section
/-! DEFINITION. The trap routines (45_trap.md). A whole routine is part of the one TRAP step (D24). TRAP does not change
`pc` beyond the fetch, does not write `x[7]` and does not write COND (R120). -/

namespace Sys2Proof.Machine

/-- The argument and result register of the routines, `x[0]` (10_state.md R11). -/
def trapReg : Reg := 0#3

/-- TRAP GETC (R121). -/
def execTrapGetc (s : State) : Result :=
  match s.consoleGet with
  | some (c, t) => .next (t.setReg trapReg c)
  | none => .fault (.inputNeverComes s.conOut)

/-- TRAP OUT (R122). -/
def execTrapOut (s : State) : Result :=
  .next ((s.consolePut (lowByte (s.reg trapReg))).consoleFlush)

/-- The loop of PUTS and PUTSP (R123, R125): read the word at `a`; stop at a zero word; else write what `bytesOf` takes
from the word and go on at `a + 1`. `fuel` is how many words are read at most; `none` says that no zero word was met. -/
def State.printString (bytesOf : Word → List Byte) : Nat → Word → State → Option State
  | 0, _, _ => none
  | fuel + 1, a, s =>
    if s.memRead a = 0x0000#16 then some (s.afterRead a)
    else State.printString bytesOf fuel (a + 0x0001#16) ((s.afterRead a).consolePutAll (bytesOf (s.memRead a)))

/-- One pass over all of memory for each listed byte and each listed poll answer, and two more. Every pass polls at
`KBSR_ADDR`, so a string that ends by what the state lists ends within these reads. -/
def State.listedReads (s : State) : Nat := 65536 * (s.kbdIn.length + s.pollAnswers.length + 2)

/-- As many reads as any string that ends takes: the listed ones, and one pass for each free answer up to the first that
is no and for each free byte up to the first that is 0x00, which ends the string at `KBDR_ADDR`. Where neither ever
comes, a further pass reads what the last one read (Laws/Strings.lean; log entry 10). -/
def State.allReads (s : State) : Nat :=
  65536 * ((nextSilence (s.pollsDone + s.pollAnswers.length)).elim 0 (· + 1) +
    (nextZero (s.kbdTaken + s.kbdIn.length)).elim 0 (· + 1)) + s.listedReads

/-- Where the loop of the manual, which has no bound, leaves when it is entered at `a`; `none` where it never does. The
second search only goes on where the first has met no end. -/
def State.stringEnd (bytesOf : Word → List Byte) (a : Word) (s : State) : Option State :=
  match State.printString bytesOf s.listedReads a s with
  | some t => some t
  | none => State.printString bytesOf s.allReads a s

/-- The end of a string routine: one flush. No successor where the loop never ends (R123 corner case (g), D16,
93_implementation_defined.md U13). -/
def stringResult : Option State → Result
  | some t => .next t.consoleFlush
  | none => .fault .stringNeverEnds

/-- What PUTS writes of a non-zero word: its low byte (R123). -/
def putsBytes (w : Word) : List Byte := [lowByte w]

/-- What PUTSP writes of a non-zero word: its low byte always, then its high byte if that is not zero (R125). -/
def putspBytes (w : Word) : List Byte :=
  if highByte w = 0x00#8 then [lowByte w] else [lowByte w, highByte w]

/-- TRAP PUTS (R123). -/
def execTrapPuts (s : State) : Result :=
  stringResult (State.stringEnd putsBytes (s.reg trapReg) s)

/-- TRAP IN: prompt, flush, blocking read, echo, flush, then `x[0]` (R124, D17). -/
def execTrapIn (s : State) : Result :=
  let prompted := (s.consolePutAll s.inPrompt).consoleFlush
  match prompted.consoleGet with
  | some (c, t) => .next (((t.consolePut (lowByte c)).consoleFlush).setReg trapReg c)
  | none => .fault (.inputNeverComes prompted.conOut)

/-- TRAP PUTSP (R125). -/
def execTrapPutsp (s : State) : Result :=
  stringResult (State.stringEnd putspBytes (s.reg trapReg) s)

/-- TRAP HALT: no output, no flush (R126, D18). -/
def execTrapHalt (s : State) : Result := .next s.halt

/-- TRAP with any other vector (R127). Which vector it is makes no difference: the latched word is recorded. -/
def execTrap (_vec : BitVec 8) (s : State) : Result :=
  .next (s.raiseDecodeFault .undefinedTrapVector)

end Sys2Proof.Machine
end

