-- ==== Sys2Proof/Machine/Step.lean ====
section
/-! DEFINITION. One step of the machine (40_fetch_execute.md R74, R76). -/

namespace Sys2Proof.Machine

/-- `Step()`: fetch, increment, decode, execute. It is defined only while `RUN` is RUNNING; otherwise there is no
successor. -/
def step (s : State) : Host.Outcome State Fault Refusal :=
  match s.run with
  | .running => exec (decode s.fetch.instr) s.fetch
  | .halted => .fault .halted
  | .faulted => .fault .faulted

/-- The state `s` with the word `w` stored where `step` fetches its next instruction, so that the very next step runs it
(log entry 4). -/
def State.withFetchWord (s : State) (nbits w : Nat) : State :=
  s.placeForFetch (BitVec.ofNat 16 (w % 2 ^ nbits))

end Sys2Proof.Machine
end

