-- ==== Sys2Proof/Machine/Launch.lean ====
section
/-! DEFINITION. The boot contract (70_reset_and_hazards.md R160, R164, R165): the launch state is the reset state with
the launch parameters in place. The loader is outside the block; only what it leaves behind is modelled. -/

namespace Sys2Proof.Machine

/-- The launch parameters (92_eei_decisions.md, "Open parameters, gathered"). -/
structure LaunchParams where
  /-- `PC_RESET` (D8) -/
  pcReset : Word
  /-- `IMAGE`, written in this order, so that of two words for one address the later one stays (D9) -/
  image : List (Word × Word)
  /-- `IN_PROMPT` (D17) -/
  inPrompt : List Byte
  /-- `CONSOLE_EOF` (D14) -/
  consoleEof : ConsoleEof
  /-- what the environment will deliver (D13) -/
  kbdIn : List Byte
  kbdEnded : Bool
  pollAnswers : List Bool
  deriving DecidableEq, Repr

/-- The parameters at the spec's defaults, an empty image and an open input stream. -/
def LaunchParams.default : LaunchParams where
  pcReset := Config.pcReset
  image := []
  inPrompt := Config.inPrompt
  consoleEof := Config.consoleEof
  kbdIn := []
  kbdEnded := false
  pollAnswers := []

/-- Memory overlaid with an image (R164, D9). -/
def Memory.overlay (m : Memory) (image : List (Word × Word)) : Memory :=
  image.foldl (fun m c => Memory.set m c.1.toNat c.2) m

/-- The launch state (R160, R164). A reset input, where the block has one, puts the machine in this state again and is
the only way out of HALTED and FAULTED (R160, D22). -/
def State.launch (p : LaunchParams) : State :=
  { State.reset with
    pc := p.pcReset
    mem := Memory.overlay State.reset.mem p.image
    inPrompt := p.inPrompt
    consoleEof := p.consoleEof
    kbdIn := p.kbdIn
    kbdEnded := p.kbdEnded
    pollAnswers := p.pollAnswers }

/-- A word of an image file: two bytes, the first the high one (R165, 20_memory.md R39). -/
def bigEndianWord (hi lo : Byte) : Word := (hi ++ lo : BitVec (8 + 8))

/-- The words of a byte stream; `none` where a byte is left over, of which the spec says nothing (N13). -/
def wordsOfBytes : List Byte → Option (List Word)
  | [] => some []
  | [_] => none
  | hi :: lo :: rest => (wordsOfBytes rest).map (bigEndianWord hi lo :: ·)

/-- Words at consecutive addresses from `origin`. -/
def imageAt (origin : Word) : List Word → List (Word × Word)
  | [] => []
  | w :: rest => (origin, w) :: imageAt (origin + 0x0001#16) rest

/-- The launch parameters of an image file: the first word is the origin, where the others are loaded contiguously and
where execution starts (R164, R165). `none` for the files of which the spec says nothing: no origin, an odd byte, a
word past 0xFFFF (N13; log entry 5). -/
def LaunchParams.ofImageFile (bytes : List Byte) : Option LaunchParams :=
  match wordsOfBytes bytes with
  | some (origin :: words) =>
    if origin.toNat + words.length ≤ 65536 then
      some { LaunchParams.default with pcReset := origin, image := imageAt origin words }
    else none
  | _ => none

end Sys2Proof.Machine
end

