-- ==== Sys2Proof/Safety.lean ====
section
/-! DEFINITION. The terms claims are stated in: how a run ends, the invariant, the frames, which effects an instruction
may have, and the string loop of the manual as a relation. Nothing here is part of the machine. -/

namespace Sys2Proof.Machine

/-! ### How a run ends (40_fetch_execute.md R77) -/

/-- The run has ended successfully. -/
def State.EndedWell (s : State) : Prop := s.run = .halted

/-- The run has ended abnormally. -/
def State.EndedByFault (s : State) : Prop := s.run = .faulted

/-! ### The invariant -/

/-- The values COND can hold (10_state.md R13). -/
def CondLegal (c : BitVec 3) : Prop := c = 0b000#3 ∨ c = 0b001#3 ∨ c = 0b010#3 ∨ c = 0b100#3

/-- The cause of the decode fault a word raises, read from its bits (60_exceptions.md R140, 30_encoding.md R62). -/
def causeOfWord (w : Word) : Option FaultCause :=
  if w.extractLsb' 12 4 = 0xD#4 then some .reservedOpcode
  else if w.extractLsb' 12 4 = 0x8#4 then some .unimplementedOpcode
  else if w.extractLsb' 12 4 = 0xF#4 ∧ undefinedVector (w.extractLsb' 0 8) then some .undefinedTrapVector
  else none

/-- The fault latches hold something exactly in FAULTED, and then a fatal word with its own cause (10_state.md R19,
60_exceptions.md R140). -/
def FaultRecordOk (s : State) : Prop :=
  match s.run with
  | .faulted => ∃ w c, s.faultInstr = some w ∧ s.faultCause = some c ∧ causeOfWord w = some c
  | .running => s.faultCause = none ∧ s.faultInstr = none
  | .halted => s.faultCause = none ∧ s.faultInstr = none

/-- What every step keeps. -/
structure Inv (s : State) : Prop where
  mem_wf : Memory.wf s.mem
  cond_legal : CondLegal s.cond
  fault_record : FaultRecordOk s

/-! ### Frames: what is the same in `t` as in `s` -/

/-- Every general register. -/
def SameRegs (s t : State) : Prop := ∀ r : Reg, t.reg r = s.reg r

/-- Every general register but `d`. -/
def SameRegsBut (d : Reg) (s t : State) : Prop := ∀ r : Reg, r ≠ d → t.reg r = s.reg r

/-- Every memory word. -/
def SameCells (s t : State) : Prop := ∀ a : Word, t.cell a = s.cell a

/-- Every memory word but the one at `d`. -/
def SameCellsBut (d : Word) (s t : State) : Prop := ∀ a : Word, a ≠ d → t.cell a = s.cell a

/-- Every memory word but the two device cells and the one at `d`. -/
def SameCellsButDevicesAnd (d : Word) (s t : State) : Prop :=
  ∀ a : Word, a ≠ d → a ≠ kbsrAddr → a ≠ kbdrAddr → t.cell a = s.cell a

/-- Every memory word but the two device cells. -/
def SameCellsButDevices (s t : State) : Prop := ∀ a : Word, a ≠ kbsrAddr → a ≠ kbdrAddr → t.cell a = s.cell a

/-- The run state, the two fault latches and the instruction latch. -/
def SameControl (s t : State) : Prop :=
  t.run = s.run ∧ t.faultCause = s.faultCause ∧ t.faultInstr = s.faultInstr ∧ t.instr = s.instr

/-- The input stream and the poll answers. -/
def SameInput (s t : State) : Prop :=
  t.kbdIn = s.kbdIn ∧ t.kbdEnded = s.kbdEnded ∧ t.kbdTaken = s.kbdTaken ∧
    t.pollAnswers = s.pollAnswers ∧ t.pollsDone = s.pollsDone

/-- The launch parameters. -/
def SameParams (s t : State) : Prop := t.inPrompt = s.inPrompt ∧ t.consoleEof = s.consoleEof

/-- The whole console: input, output and launch parameters. -/
def SameConsole (s t : State) : Prop := SameInput s t ∧ t.conOut = s.conOut ∧ SameParams s t

/-- An operate instruction and LEA leave everything but DR and COND. -/
def OperateFrame (dr : Reg) (s t : State) : Prop :=
  SameRegsBut dr s t ∧ t.pc = s.pc ∧ SameCells s t ∧ SameControl s t ∧ SameConsole s t

/-- A load leaves everything but DR and COND; `u` is the state after its reads, which differs from `s` only by the
polls of reads at `KBSR_ADDR`. -/
def LoadFrame (dr : Reg) (s u t : State) : Prop :=
  SameRegsBut dr s t ∧ t.pc = s.pc ∧ SameControl s t ∧ SameParams s t ∧ t.conOut = s.conOut ∧
    SameCells u t ∧ SameInput u t ∧ SameCellsButDevices s t

/-- A store leaves everything but the word at `ea`. -/
def StoreFrame (ea : Word) (s t : State) : Prop :=
  SameRegs s t ∧ t.pc = s.pc ∧ t.cond = s.cond ∧ SameCellsBut ea s t ∧ SameControl s t ∧ SameConsole s t

/-- A jump or branch leaves everything but `pc` (and, for JSR and JSRR, `x[7]`, which is left out of this frame). -/
def JumpFrame (s t : State) : Prop :=
  t.cond = s.cond ∧ SameCells s t ∧ SameControl s t ∧ SameConsole s t

/-- A decode fault leaves everything but `RUN` and the two fault latches (60_exceptions.md R141). -/
def FaultFrame (s t : State) : Prop :=
  SameRegs s t ∧ t.pc = s.pc ∧ t.cond = s.cond ∧ SameCells s t ∧ SameConsole s t ∧ t.instr = s.instr

/-- A blocking read leaves everything but `x[0]`, the input stream and, for IN, the output. -/
def InputFrame (s t : State) : Prop :=
  SameRegsBut trapReg s t ∧ t.pc = s.pc ∧ t.cond = s.cond ∧ SameCells s t ∧ SameControl s t ∧ SameParams s t ∧
    t.kbdEnded = s.kbdEnded ∧ t.pollAnswers = s.pollAnswers ∧ t.pollsDone = s.pollsDone

/-- A trap routine that only writes output leaves everything else. -/
def OutputFrame (s t : State) : Prop :=
  SameRegs s t ∧ t.pc = s.pc ∧ t.cond = s.cond ∧ SameCells s t ∧ SameControl s t ∧ SameInput s t ∧ SameParams s t

/-! ### Which effects an instruction may have -/

/-- The register an instruction writes (10_state.md R11, table of roles). -/
def writesReg : Instr → Option Reg
  | .br _ _ => none
  | .addReg dr _ _ => some dr
  | .addImm dr _ _ => some dr
  | .ld dr _ => some dr
  | .st _ _ => none
  | .jsr _ => some 7#3
  | .jsrr _ => some 7#3
  | .andReg dr _ _ => some dr
  | .andImm dr _ _ => some dr
  | .ldr dr _ _ => some dr
  | .str _ _ _ => none
  | .rti => none
  | .notReg dr _ => some dr
  | .ldi dr _ => some dr
  | .sti _ _ => none
  | .jmp _ => none
  | .res => none
  | .lea dr _ => some dr
  | .trapGetc => some 0#3
  | .trapOut => none
  | .trapPuts => none
  | .trapIn => some 0#3
  | .trapPutsp => none
  | .trapHalt => none
  | .trap _ => none

/-- The opcodes whose instructions set the flags: exactly seven (10_state.md R15). -/
def opcodeSetsFlags : Opcode → Bool
  | .add => true
  | .and => true
  | .not => true
  | .ld => true
  | .ldi => true
  | .ldr => true
  | .lea => true
  | .br => false
  | .st => false
  | .jsr => false
  | .str => false
  | .rti => false
  | .sti => false
  | .jmp => false
  | .res => false
  | .trap => false

/-- The opcodes that may overwrite `pc` after the fetch (10_state.md R12). -/
def opcodeTransfers : Opcode → Bool
  | .br => true
  | .jsr => true
  | .jmp => true
  | .add => false
  | .and => false
  | .not => false
  | .ld => false
  | .ldi => false
  | .ldr => false
  | .lea => false
  | .st => false
  | .str => false
  | .sti => false
  | .rti => false
  | .res => false
  | .trap => false

/-- The address an instruction stores to (20_memory.md R41), by the same function its meaning uses. -/
def storesAt (s : State) : Instr → Option Word
  | .st _ off => some (s.pcRel9 off)
  | .sti _ off => some (s.indirect9 off)
  | .str _ base off => some (s.baseOff6 base off)
  | .br _ _ => none
  | .addReg _ _ _ => none
  | .addImm _ _ _ => none
  | .ld _ _ => none
  | .jsr _ => none
  | .jsrr _ => none
  | .andReg _ _ _ => none
  | .andImm _ _ _ => none
  | .ldr _ _ _ => none
  | .rti => none
  | .notReg _ _ => none
  | .ldi _ _ => none
  | .jmp _ => none
  | .res => none
  | .lea _ _ => none
  | .trapGetc => none
  | .trapOut => none
  | .trapPuts => none
  | .trapIn => none
  | .trapPutsp => none
  | .trapHalt => none
  | .trap _ => none

/-- The instructions that read memory beyond the fetch, and so may poll (20_memory.md R41). -/
def readsMemory : Instr → Bool
  | .ld _ _ => true
  | .ldi _ _ => true
  | .ldr _ _ _ => true
  | .sti _ _ => true
  | .trapPuts => true
  | .trapPutsp => true
  | .br _ _ => false
  | .addReg _ _ _ => false
  | .addImm _ _ _ => false
  | .st _ _ => false
  | .jsr _ => false
  | .jsrr _ => false
  | .andReg _ _ _ => false
  | .andImm _ _ _ => false
  | .str _ _ _ => false
  | .rti => false
  | .notReg _ _ => false
  | .jmp _ => false
  | .res => false
  | .lea _ _ => false
  | .trapGetc => false
  | .trapOut => false
  | .trapIn => false
  | .trapHalt => false
  | .trap _ => false

/-- The instructions that write console output (45_trap.md R129). -/
def writesOutput (i : Instr) : Prop := i = .trapOut ∨ i = .trapPuts ∨ i = .trapIn ∨ i = .trapPutsp

/-- The instructions that read the console by a blocking read (10_state.md R24). -/
def blocksOnInput (i : Instr) : Prop := i = .trapGetc ∨ i = .trapIn

/-! ### The string loop as a relation -/

/-- `PrintedString bytesOf s a t`: the loop of PUTS (45_trap.md R123) or PUTSP (R125), entered in state `s` with the
address `a`, leaves its loop in state `t`. There is no bound on the number of words. -/
inductive PrintedString (bytesOf : Word → List Byte) : State → Word → State → Prop where
  | stop (s : State) (a : Word) : s.memRead a = 0x0000#16 → PrintedString bytesOf s a (s.afterRead a)
  | more (s : State) (a : Word) (t : State) : s.memRead a ≠ 0x0000#16 →
      PrintedString bytesOf ((s.afterRead a).consolePutAll (bytesOf (s.memRead a))) (a + 0x0001#16) t →
      PrintedString bytesOf s a t

/-! ### The opcode table -/

/-- One row of spec/opcode_table.json. -/
structure TableRow where
  mask : Word
  pattern : Word
  deriving DecidableEq, Repr

/-- The rows of spec/opcode_table.json, in the table's order. -/
def opcodeRows : List TableRow :=
  [⟨0xF000#16, 0x0000#16⟩, ⟨0xF020#16, 0x1000#16⟩, ⟨0xF020#16, 0x1020#16⟩, ⟨0xF000#16, 0x2000#16⟩,
   ⟨0xF000#16, 0x3000#16⟩, ⟨0xF800#16, 0x4800#16⟩, ⟨0xF800#16, 0x4000#16⟩, ⟨0xF020#16, 0x5000#16⟩,
   ⟨0xF020#16, 0x5020#16⟩] ++
  [⟨0xF000#16, 0x6000#16⟩, ⟨0xF000#16, 0x7000#16⟩, ⟨0xF000#16, 0x8000#16⟩, ⟨0xF000#16, 0x9000#16⟩,
   ⟨0xF000#16, 0xA000#16⟩, ⟨0xF000#16, 0xB000#16⟩, ⟨0xF000#16, 0xC000#16⟩, ⟨0xF000#16, 0xD000#16⟩,
   ⟨0xF000#16, 0xE000#16⟩] ++
  [⟨0xF0FF#16, 0xF020#16⟩, ⟨0xF0FF#16, 0xF021#16⟩, ⟨0xF0FF#16, 0xF022#16⟩, ⟨0xF0FF#16, 0xF023#16⟩,
   ⟨0xF0FF#16, 0xF024#16⟩, ⟨0xF0FF#16, 0xF025#16⟩, ⟨0xF000#16, 0xF000#16⟩]

/-- The number of an instruction's row in the table. -/
def rowOf : Instr → Nat
  | .br _ _ => 0
  | .addReg _ _ _ => 1
  | .addImm _ _ _ => 2
  | .ld _ _ => 3
  | .st _ _ => 4
  | .jsr _ => 5
  | .jsrr _ => 6
  | .andReg _ _ _ => 7
  | .andImm _ _ _ => 8
  | .ldr _ _ _ => 9
  | .str _ _ _ => 10
  | .rti => 11
  | .notReg _ _ => 12
  | .ldi _ _ => 13
  | .sti _ _ => 14
  | .jmp _ => 15
  | .res => 16
  | .lea _ _ => 17
  | .trapGetc => 18
  | .trapOut => 19
  | .trapPuts => 20
  | .trapIn => 21
  | .trapPutsp => 22
  | .trapHalt => 23
  | .trap _ => 24

/-- The bits of a word that its form uses, read from its top bits; the others are ignored (30_encoding.md R60, R61). -/
def usedBits (w : Word) : Word :=
  let o := w.extractLsb' 12 4
  if o = 0x1#4 ∨ o = 0x5#4 then (if w.getLsbD 5 then 0xFFFF#16 else 0xFFE7#16)
  else if o = 0x9#4 then 0xFFC0#16
  else if o = 0xC#4 then 0xF1C0#16
  else if o = 0x4#4 then (if w.getLsbD 11 then 0xFFFF#16 else 0xF9C0#16)
  else if o = 0xF#4 then 0xF0FF#16
  else if o = 0x8#4 ∨ o = 0xD#4 then 0xF000#16
  else 0xFFFF#16

end Sys2Proof.Machine
end

