-- ==== Sys2Proof/Certificates/Slice0/Obligations.lean ====
section
/-! DEFINITION. The statements for the provers. Each docstring names the rules of the spec it formalises; where a clause
rests on a decision of the spec or of this model, it names the decision (D<n>, K<n>) or the log entry. -/

open Sys2Proof Sys2Proof.Machine

/-! ### Encoding -/

/-- Words written out from 30_encoding.md R60 (the vectors of 95_test_vectors.md section 9) decode to the instructions
they stand for. The opcode numbers and field positions are the spec's own (K2, K3; log entry 12). -/
def Obligations.WordsOfTheManualDecode : Prop :=
  decode 0x0A05#16 = .br 0b101#3 5#9 ∧ decode 0x1283#16 = .addReg 1#3 2#3 3#3 ∧
  decode 0x12BF#16 = .addImm 1#3 2#3 0x1F#5 ∧ decode 0x2FFF#16 = .ld 7#3 0x1FF#9 ∧
  decode 0x3E00#16 = .st 7#3 0#9 ∧ decode 0x4800#16 = .jsr 0#11 ∧ decode 0x47C0#16 = .jsrr 7#3 ∧
  decode 0x5B7F#16 = .andImm 5#3 5#3 0x1F#5 ∧ decode 0x6FFF#16 = .ldr 7#3 7#3 0x3F#6 ∧
  decode 0x7000#16 = .str 0#3 0#3 0#6 ∧ decode 0x9FFF#16 = .notReg 7#3 7#3 ∧ decode 0xC1C0#16 = .jmp 7#3 ∧
  decode 0xEFFF#16 = .lea 7#3 0x1FF#9 ∧ decode 0xF120#16 = .trapGetc ∧ decode 0xF080#16 = .trap 0x80#8

/-- R60, R51, R62: what every word decodes to, by its top four bits, every operand field at its place. Together the
clauses leave no word out. The numbers and places are the spec's own (K2, K3, K5; log entry 12). -/
def Obligations.DecodeReadsEveryFieldAtItsPlace : Prop :=
  ∀ w : Word,
    (w.extractLsb' 12 4 = 0x0#4 → decode w = .br (w.extractLsb' 9 3) (w.extractLsb' 0 9)) ∧
    (w.extractLsb' 12 4 = 0x1#4 → decode w =
      if w.getLsbD 5 then .addImm (w.extractLsb' 9 3) (w.extractLsb' 6 3) (w.extractLsb' 0 5)
      else .addReg (w.extractLsb' 9 3) (w.extractLsb' 6 3) (w.extractLsb' 0 3)) ∧
    (w.extractLsb' 12 4 = 0x2#4 → decode w = .ld (w.extractLsb' 9 3) (w.extractLsb' 0 9)) ∧
    (w.extractLsb' 12 4 = 0x3#4 → decode w = .st (w.extractLsb' 9 3) (w.extractLsb' 0 9)) ∧
    (w.extractLsb' 12 4 = 0x4#4 → decode w =
      if w.getLsbD 11 then .jsr (w.extractLsb' 0 11) else .jsrr (w.extractLsb' 6 3)) ∧
    (w.extractLsb' 12 4 = 0x5#4 → decode w =
      if w.getLsbD 5 then .andImm (w.extractLsb' 9 3) (w.extractLsb' 6 3) (w.extractLsb' 0 5)
      else .andReg (w.extractLsb' 9 3) (w.extractLsb' 6 3) (w.extractLsb' 0 3)) ∧
    (w.extractLsb' 12 4 = 0x6#4 →
      decode w = .ldr (w.extractLsb' 9 3) (w.extractLsb' 6 3) (w.extractLsb' 0 6)) ∧
    (w.extractLsb' 12 4 = 0x7#4 →
      decode w = .str (w.extractLsb' 9 3) (w.extractLsb' 6 3) (w.extractLsb' 0 6)) ∧
    (w.extractLsb' 12 4 = 0x8#4 → decode w = .rti) ∧
    (w.extractLsb' 12 4 = 0x9#4 → decode w = .notReg (w.extractLsb' 9 3) (w.extractLsb' 6 3)) ∧
    (w.extractLsb' 12 4 = 0xA#4 → decode w = .ldi (w.extractLsb' 9 3) (w.extractLsb' 0 9)) ∧
    (w.extractLsb' 12 4 = 0xB#4 → decode w = .sti (w.extractLsb' 9 3) (w.extractLsb' 0 9)) ∧
    (w.extractLsb' 12 4 = 0xC#4 → decode w = .jmp (w.extractLsb' 6 3)) ∧
    (w.extractLsb' 12 4 = 0xD#4 → decode w = .res) ∧
    (w.extractLsb' 12 4 = 0xE#4 → decode w = .lea (w.extractLsb' 9 3) (w.extractLsb' 0 9)) ∧
    (w.extractLsb' 12 4 = 0xF#4 → decode w =
      if (w.extractLsb' 0 8).toNat = 0x20 then .trapGetc
      else if (w.extractLsb' 0 8).toNat = 0x21 then .trapOut
      else if (w.extractLsb' 0 8).toNat = 0x22 then .trapPuts
      else if (w.extractLsb' 0 8).toNat = 0x23 then .trapIn
      else if (w.extractLsb' 0 8).toNat = 0x24 then .trapPutsp
      else if (w.extractLsb' 0 8).toNat = 0x25 then .trapHalt
      else .trap (w.extractLsb' 0 8))

/-- R64: the first row of spec/opcode_table.json whose mask and match select a word is the row of the instruction the
word decodes to; some row selects every word. The table's numbers are the spec's own (K2, K3, K5; log entry 12). -/
def Obligations.FirstMatchingTableRowIsTheDecodedOne : Prop :=
  ∀ w : Word, opcodeRows.findIdx? (fun r => decide (w &&& r.mask = r.pattern)) = some (rowOf (decode w))

/-- 30_encoding.md R60, R62: decoding the word of a well-formed instruction gives the instruction back, and every word
decodes to a well-formed one. -/
def Obligations.DecodeInvertsEncode : Prop :=
  (∀ i : Instr, i.wf = true → decode (encode i) = i) ∧ ∀ w : Word, (decode w).wf = true

/-- R61 (D12): two words decode alike exactly when they agree on the bits their form uses; the other bits select nothing
and never cause a fault. -/
def Obligations.UnusedBitsAreExactlyTheIgnoredOnes : Prop :=
  ∀ v w : Word, decode v = decode w ↔ v &&& usedBits w = w &&& usedBits w

/-! ### Arithmetic primitives, addressing modes, flags -/

/-- R1 (with the two's-complement law of R2): `sext_N` of the low N bits of a word, for the four widths. -/
def Obligations.SignExtensionKeepsTheSignedValue : Prop :=
  ∀ n : Nat, n = 5 ∨ n = 6 ∨ n = 9 ∨ n = 11 → ∀ v : Word,
    (sext (v.extractLsb' 0 n)).toNat =
      (if v.getLsbD (n - 1) then (v.toNat % 2 ^ n + 0xFFFF * 2 ^ n) % 65536 else v.toNat % 2 ^ n) ∧
    (sext (v.extractLsb' 0 n)).toInt = (v.extractLsb' 0 n).toInt ∧
    -(2 ^ (n - 1) : Int) ≤ (sext (v.extractLsb' 0 n)).toInt ∧ (sext (v.extractLsb' 0 n)).toInt < 2 ^ (n - 1)

/-- R104, R4: the four addressing modes, each a sum modulo 65536 of a signed offset that is not scaled; inside an
instruction `pc` is the incremented one. JSR's width 11 is D2. -/
def Obligations.AddressingModesAddSignedOffsets : Prop :=
  ∀ s : State,
    (∀ imm : BitVec 5, immediate imm = BitVec.ofInt 16 imm.toInt) ∧
    (∀ off : BitVec 9, s.pcRel9 off = BitVec.ofInt 16 (s.pc.toNat + off.toInt)) ∧
    (∀ off : BitVec 11, s.pcRel11 off = BitVec.ofInt 16 (s.pc.toNat + off.toInt)) ∧
    (∀ off : BitVec 9, s.indirect9 off = s.memRead (BitVec.ofInt 16 (s.pc.toNat + off.toInt))) ∧
    (∀ (base : Reg) (off : BitVec 6), s.baseOff6 base off = BitVec.ofInt 16 ((s.reg base).toNat + off.toInt))

/-- R14: `SetCC(v)` sets NEGATIVE if the top bit of `v` is 1, else ZERO if `v` is 0, else POSITIVE, and nothing else
changes. NEGATIVE is 0b100, ZERO 0b010 and POSITIVE 0b001 as R13 numbers them, the spec's own choice (D5; log entry 12).
`flagOf`, in which the other statements speak, is this flag. -/
def Obligations.SetCCSetsTheFlagOfTheValue : Prop :=
  ∀ (s : State) (v : Word),
    (s.setCC v).cond = (if 32768 ≤ v.toNat then 0b100#3 else if v.toNat = 0 then 0b010#3 else 0b001#3) ∧
    flagOf v = (s.setCC v).cond ∧
    SameRegs s (s.setCC v) ∧ (s.setCC v).pc = s.pc ∧ SameCells s (s.setCC v) ∧ SameControl s (s.setCC v) ∧
    SameConsole s (s.setCC v)

/-! ### Memory and the keyboard registers -/

/-- R33, R34, R3 (D13, D15): what a read of the status register returns and does, for both answers of the poll. The two
device addresses are those of R32, the spec's own choice (D7; log entry 12). -/
def Obligations.StatusReadPollsAndLatchesTheAnswer : Prop :=
  kbsrAddr = 0xFE00#16 ∧ kbdrAddr = 0xFE02#16 ∧ ∀ s : State,
    (∀ b, s.consolePoll.1 = some b → s.memRead kbsrAddr = 0x8000#16 ∧
      (s.afterRead kbsrAddr).cell kbsrAddr = 0x8000#16 ∧ (s.afterRead kbsrAddr).cell kbdrAddr = BitVec.ofNat 16 b.toNat) ∧
    (s.consolePoll.1 = none → s.memRead kbsrAddr = 0x0000#16 ∧
      (s.afterRead kbsrAddr).cell kbsrAddr = 0x0000#16 ∧
      (s.afterRead kbsrAddr).cell kbdrAddr = s.cell kbdrAddr) ∧
    SameCellsButDevices s (s.afterRead kbsrAddr) ∧ SameInput s.consolePoll.2 (s.afterRead kbsrAddr) ∧
    SameRegs s (s.afterRead kbsrAddr) ∧ (s.afterRead kbsrAddr).pc = s.pc ∧
    (s.afterRead kbsrAddr).cond = s.cond ∧ SameControl s (s.afterRead kbsrAddr) ∧
    SameParams s (s.afterRead kbsrAddr) ∧ (s.afterRead kbsrAddr).conOut = s.conOut

/-- R35, R33: a read of the data register is an ordinary read, as is a read of every other address but the status
register: it returns the cell and changes nothing. -/
def Obligations.OtherReadsAreOrdinary : Prop :=
  (∀ s : State, s.memRead kbdrAddr = s.cell kbdrAddr ∧ s.afterRead kbdrAddr = s) ∧
  ∀ (s : State) (a : Word), a ≠ kbsrAddr → s.memRead a = s.cell a ∧ s.afterRead a = s

/-- R23 (D13), over the input the state lists: a poll for which the host has a byte consumes the oldest one, some byte of
the host's where the state lists none and the stream goes on; a poll for which it has none, or after the end of the
stream, changes nothing but the count of polls; where the state lists no answer it is one of the two (log entries
6, 7). -/
def Obligations.PollConsumesAtMostTheNextByte : Prop :=
  ∀ s : State,
    (∀ b rest answers, s.kbdIn = b :: rest → s.pollAnswers = true :: answers →
      s.consolePoll = (some b, { s with kbdIn := rest, kbdTaken := s.kbdTaken + 1, pollAnswers := answers,
                                        pollsDone := s.pollsDone + 1 })) ∧
    (∀ answers, s.pollAnswers = false :: answers →
      s.consolePoll = (none, { s with pollAnswers := answers, pollsDone := s.pollsDone + 1 })) ∧
    (s.kbdIn = [] → s.kbdEnded = true → s.consolePoll = (none, s.polled)) ∧
    (∀ b rest, s.kbdIn = b :: rest → s.pollAnswers = [] →
      s.consolePoll = (none, s.polled) ∨
      s.consolePoll = (some b, { s.polled with kbdIn := rest, kbdTaken := s.kbdTaken + 1 })) ∧
    (∀ answers, s.kbdIn = [] → s.kbdEnded = false → s.pollAnswers = true :: answers →
      ∃ b, s.consolePoll = (some b, { s with kbdTaken := s.kbdTaken + 1, pollAnswers := answers,
                                             pollsDone := s.pollsDone + 1 })) ∧
    (s.kbdIn = [] → s.kbdEnded = false → s.pollAnswers = [] →
      s.consolePoll = (none, s.polled) ∨
      ∃ b, s.consolePoll = (some b, { s.polled with kbdTaken := s.kbdTaken + 1 }))

/-- R36 (and R37): a write stores the word at its address, for every address, the two device addresses included, and
has no other effect. -/
def Obligations.WriteStoresOneWordAndNothingElse : Prop :=
  ∀ (s : State) (a v : Word), (s.memWrite a v).cell a = v ∧ (s.memWrite a v).cond = s.cond ∧
    StoreFrame a s (s.memWrite a v)

/-- R43, R113, R37: a read returns the latest word written to its address, and a word written to the status register is
never read back, since a read of it polls first. -/
def Obligations.ReadReturnsTheLatestWrite : Prop :=
  ∀ (s : State) (a v b : Word),
    (b ≠ kbsrAddr → (s.memWrite a v).memRead b = if b = a then v else s.memRead b) ∧
    (s.memWrite kbsrAddr v).memRead kbsrAddr = s.memRead kbsrAddr

/-- The model's canonical form (log entry 1): two memories in it that read the same at every address are the same
data. -/
def Obligations.MemoriesThatReadAlikeAreEqual : Prop :=
  ∀ m n : Memory, Memory.wf m → Memory.wf n → (∀ a : Word, Memory.get m a.toNat = Memory.get n a.toNat) → m = n

/-! ### The step -/

/-- R70, R71: in RUNNING a step is the meaning of the instruction that the word read at `pc` decodes to, run in the state
after that read, with the word latched and `pc` incremented modulo 65536. -/
def Obligations.StepRunsTheDecodedInstruction : Prop :=
  ∀ (s : State) (i : Instr), s.run = .running → decode (s.memRead s.pc) = i →
    step s = exec i { s.afterRead s.pc with instr := s.memRead s.pc, pc := BitVec.ofNat 16 (s.pc.toNat + 1) }

/-- R76 (D10): no step is enabled in HALTED or FAULTED; the model says which of the two it is. -/
def Obligations.NoStepOutsideRunning : Prop :=
  (∀ s : State, s.run = .halted → step s = .fault .halted) ∧
  (∀ s : State, s.run = .faulted → step s = .fault .faulted)

/-- R78: a fetch at the status register executes the answer of the poll: RTI, which faults, when a byte was available,
and a no-operation when none was; the word stored there is never executed. The address 0xFE01 of the next instruction
follows the device address, the spec's own choice (D7, K6; log entry 12); the cause and the latches are D11, the byte
the poll consumes is D13 and the word the read returns is D15, the spec's own choices too. -/
def Obligations.FetchAtStatusRegisterExecutesThePoll : Prop :=
  ∀ s : State, s.run = .running → s.pc = kbsrAddr →
    (∀ b, s.consolePoll.1 = some b → ∃ t, step s = .next t ∧ t.run = .faulted ∧
      t.faultCause = some .unimplementedOpcode ∧ t.faultInstr = some 0x8000#16 ∧ t.pc = 0xFE01#16 ∧
      t.cell kbsrAddr = 0x8000#16 ∧ t.cell kbdrAddr = BitVec.ofNat 16 b.toNat ∧ SameCellsButDevices s t ∧
      SameInput s.consolePoll.2 t ∧ SameRegs s t ∧ t.cond = s.cond ∧ t.conOut = s.conOut ∧ SameParams s t) ∧
    (s.consolePoll.1 = none → ∃ t, step s = .next t ∧ t.run = .running ∧ t.pc = 0xFE01#16 ∧
      t.cell kbsrAddr = 0x0000#16 ∧ t.cell kbdrAddr = s.cell kbdrAddr ∧ SameCellsButDevices s t ∧
      SameInput s.consolePoll.2 t ∧ SameRegs s t ∧ t.cond = s.cond ∧ t.conOut = s.conOut ∧ SameParams s t ∧
      t.faultCause = s.faultCause ∧ t.faultInstr = s.faultInstr)

/-- The model's way to place a word for the next step (log entry 4): the very next step runs exactly that word, with
the registers and flags of the state. -/
def Obligations.PlacedWordRunsNext : Prop :=
  ∀ (s : State) (w : Word), ∃ u, step (s.withFetchWord 16 w.toNat) = exec (decode w) u ∧ u.instr = w ∧
    SameRegs s u ∧ u.cond = s.cond ∧ SameConsole s u

/-- Every step keeps the invariant: the memory is in canonical form (log entry 1), COND is one of its four values (R13),
and the fault latches hold something exactly in FAULTED, a fatal word with its own cause (R19, R140, D11). -/
def Obligations.EveryStepKeepsTheInvariant : Prop :=
  ∀ s t : State, Inv s → step s = .next t → Inv t

/-- R28, R160: the invariant holds right after reset. That memory is in canonical form is the model's own clause (log
entry 1); the latches are D11. -/
def Obligations.InvariantHoldsAtReset : Prop := Inv State.reset

/-- R160, R164: the invariant holds in every launch state, whatever the image and the other launch parameters. That memory
is in canonical form is the model's own clause (log entry 1); the latches are D11. -/
def Obligations.InvariantHoldsAtLaunch : Prop := ∀ p : LaunchParams, Inv (State.launch p)

/-- R140, R62, R75 (D11): a step faults exactly when the fetched word is one of the three fatal kinds, with the cause of
that kind; then `pc` is incremented, the latches are set, and nothing else has changed but for the poll of a fetch at
the status register. No other word sets a fault. -/
def Obligations.DecodeFaultsArePreciseAndOnlyThree : Prop :=
  ∀ s : State, s.run = .running →
    (∀ c, causeOfWord (s.memRead s.pc) = some c → ∃ t, step s = .next t ∧ t.run = .faulted ∧
      t.faultCause = some c ∧ t.faultInstr = some (s.memRead s.pc) ∧
      t.pc = BitVec.ofNat 16 (s.pc.toNat + 1) ∧ SameRegs s t ∧ t.cond = s.cond ∧ t.conOut = s.conOut ∧
      SameParams s t ∧ SameCells (s.afterRead s.pc) t ∧ SameInput (s.afterRead s.pc) t ∧
      (s.pc ≠ kbsrAddr → SameCells s t ∧ SameInput s t)) ∧
    (causeOfWord (s.memRead s.pc) = none → ∀ t, step s = .next t →
      t.run ≠ .faulted ∧ t.faultCause = s.faultCause ∧ t.faultInstr = s.faultInstr)

/-- R77, R18, R19 (D10): a step leaves RUNNING only by the HALT trap, to HALTED, or by a decode fault, to FAULTED. -/
def Obligations.RunEndsOnlyByHaltOrDecodeFault : Prop :=
  ∀ s t : State, step s = .next t →
    s.run = .running ∧
    (t.EndedWell ↔ decode (s.memRead s.pc) = .trapHalt) ∧
    (t.EndedByFault ↔ (causeOfWord (s.memRead s.pc)).isSome = true)

/-- R15 (D20): COND is written by exactly the seven flag-setting opcodes, from the new value of the destination
register, and by no other instruction. -/
def Obligations.OnlySevenOpcodesWriteFlags : Prop :=
  ∀ (i : Instr) (s t : State), exec i s = .next t →
    (opcodeSetsFlags i.opcode = true → ∃ dr, writesReg i = some dr ∧ t.cond = flagOf (t.reg dr)) ∧
    (opcodeSetsFlags i.opcode = false → t.cond = s.cond)

/-- R11, R12, R94: an instruction changes no general register but the one its role table gives it (DR, `x[7]` for JSR and
JSRR, `x[0]` for GETC and IN), and beyond the fetch `pc` is changed by BR, JMP, JSR and JSRR alone. -/
def Obligations.OnlyTheNamedRegistersChange : Prop :=
  ∀ (i : Instr) (s t : State), exec i s = .next t →
    (∀ r : Reg, writesReg i ≠ some r → t.reg r = s.reg r) ∧ (opcodeTransfers i.opcode = false → t.pc = s.pc)

/-- R41, R129: memory changes only at the address an instruction stores to and, for an instruction that reads memory, in
the two device cells (the poll). -/
def Obligations.OnlyStoresAndPollsChangeMemory : Prop :=
  ∀ (i : Instr) (s t : State), exec i s = .next t → ∀ a : Word, storesAt s i ≠ some a →
    (readsMemory i = false ∨ (a ≠ kbsrAddr ∧ a ≠ kbdrAddr)) → t.cell a = s.cell a

/-- R129: output is produced only by OUT, PUTS, IN and PUTSP; input is taken only by GETC, IN and the poll of an
instruction that reads memory. -/
def Obligations.ConsoleTrafficComesFromTrapsAndPolls : Prop :=
  ∀ (i : Instr) (s t : State), exec i s = .next t →
    (¬ writesOutput i → t.conOut = s.conOut) ∧
    (¬ blocksOnInput i → readsMemory i = false → SameInput s t)

/-- R22, R25, R26: over a step the output only grows, the input is taken in order from its oldest byte, and the launch
parameters stay. The list of bytes with its end, the list of poll answers and the launch parameters as fields are the
model's form of the environment (log entries 6, 7, 8). -/
def Obligations.StreamsMoveForwardOnly : Prop :=
  ∀ s t : State, step s = .next t →
    (∃ out, t.conOut = s.conOut ++ out) ∧ (∃ taken, s.kbdIn = taken ++ t.kbdIn) ∧
    (∃ asked, s.pollAnswers = asked ++ t.pollAnswers) ∧ t.kbdEnded = s.kbdEnded ∧ SameParams s t

/-- R76, R24, R123, R125 (D10, D14, D16; log entries 7, 9, 10, 11): a step has no successor only outside RUNNING, in a
blocking read after the end of the input with `CONSOLE_EOF` stuck, or in a string routine whose loop never ends, which
takes a stream that goes on and no listed poll answer that is no; it is never refused. -/
def Obligations.EveryStopHasItsReason : Prop :=
  ∀ s : State, (∀ r, step s ≠ .refused r) ∧ ∀ f, step s = .fault f →
    (f = .halted ∧ s.run = .halted) ∨ (f = .faulted ∧ s.run = .faulted) ∨
    (s.run = .running ∧ blocksOnInput (decode (s.memRead s.pc)) ∧ (∃ out, f = .inputNeverComes out) ∧
      s.fetch.kbdIn = [] ∧ s.kbdEnded = true ∧ s.consoleEof = .stuck) ∨
    (s.run = .running ∧ f = .stringNeverEnds ∧ s.kbdEnded = false ∧ false ∉ s.fetch.pollAnswers ∧
      ((decode (s.memRead s.pc) = .trapPuts ∧ ∀ u, ¬ PrintedString putsBytes s.fetch (s.fetch.reg 0#3) u) ∨
       (decode (s.memRead s.pc) = .trapPutsp ∧ ∀ u, ¬ PrintedString putspBytes s.fetch (s.fetch.reg 0#3) u)))

/-- R20: what the instruction latch holds between steps has no effect on a step. -/
def Obligations.LatchHasNoEffectBetweenSteps : Prop :=
  ∀ (s : State) (w : Word), step { s with instr := w } = step s

/-- R45, R113: a store, by ST, STI or STR, is seen by the fetch of the very next instruction, with nothing in between. -/
def Obligations.StoreIsSeenByTheNextFetch : Prop :=
  ∀ (s : State) (i : Instr) (sr : Reg), s.run = .running → decode (s.memRead s.pc) = i →
    ((∃ off, i = .st sr off) ∨ (∃ off, i = .sti sr off) ∨ ∃ base off, i = .str sr base off) →
    storesAt s.fetch i = some s.fetch.pc → s.fetch.pc ≠ kbsrAddr →
    ∃ t, step s = .next t ∧
      step t = exec (decode (s.reg sr)) { t with instr := s.reg sr, pc := BitVec.ofNat 16 (t.pc.toNat + 1) }

/-! ### Arithmetic and logic -/

/-- R80: ADD in both forms: the sum modulo 65536 in DR, the flags from it, nothing else changed. The sources are read
before DR is written. -/
def Obligations.AddWritesTheSum : Prop :=
  (∀ (dr sr1 sr2 : Reg) (s : State), ∃ t, exec (.addReg dr sr1 sr2) s = .next t ∧
    (t.reg dr).toNat = ((s.reg sr1).toNat + (s.reg sr2).toNat) % 65536 ∧
    t.cond = flagOf (t.reg dr) ∧ OperateFrame dr s t) ∧
  (∀ (dr sr1 : Reg) (imm : BitVec 5) (s : State), ∃ t, exec (.addImm dr sr1 imm) s = .next t ∧
    t.reg dr = BitVec.ofInt 16 ((s.reg sr1).toNat + imm.toInt) ∧
    t.cond = flagOf (t.reg dr) ∧ OperateFrame dr s t)

/-- R81: AND in both forms, bit by bit; the immediate is sign extended, so that its bit 4 is its bits 15 to 5. -/
def Obligations.AndWritesTheBitwiseAnd : Prop :=
  (∀ (dr sr1 sr2 : Reg) (s : State), ∃ t, exec (.andReg dr sr1 sr2) s = .next t ∧
    (∀ k, k < 16 → (t.reg dr).getLsbD k = ((s.reg sr1).getLsbD k && (s.reg sr2).getLsbD k)) ∧
    t.cond = flagOf (t.reg dr) ∧ OperateFrame dr s t) ∧
  (∀ (dr sr1 : Reg) (imm : BitVec 5) (s : State), ∃ t, exec (.andImm dr sr1 imm) s = .next t ∧
    (∀ k, k < 16 → (t.reg dr).getLsbD k = ((s.reg sr1).getLsbD k && imm.getLsbD (min k 4))) ∧
    t.cond = flagOf (t.reg dr) ∧ OperateFrame dr s t)

/-- R82: NOT writes the bitwise complement, 0xFFFF minus the source. -/
def Obligations.NotWritesTheComplement : Prop :=
  ∀ (dr sr : Reg) (s : State), ∃ t, exec (.notReg dr sr) s = .next t ∧
    (t.reg dr).toNat = 65535 - (s.reg sr).toNat ∧ t.cond = flagOf (t.reg dr) ∧ OperateFrame dr s t

/-- R84: NOT and then ADD #1 negate a register modulo 65536. -/
def Obligations.NotThenAddOneNegates : Prop :=
  ∀ (r : Reg) (s : State), ∃ t u, exec (.notReg r r) s = .next t ∧ exec (.addImm r r 1#5) t = .next u ∧
    (u.reg r).toNat = (65536 - (s.reg r).toNat) % 65536

/-! ### Control transfer -/

/-- R90: BR adds the offset to the incremented `pc` exactly when the condition bits and COND have a bit in common, and
changes nothing else. -/
def Obligations.BranchIsTakenOnACommonBit : Prop :=
  ∀ (nzp : BitVec 3) (off : BitVec 9) (s : State), ∃ t, exec (.br nzp off) s = .next t ∧
    t.pc = (if ∃ k : Fin 3, nzp.getLsbD k = true ∧ s.cond.getLsbD k = true
            then BitVec.ofInt 16 (s.pc.toNat + off.toInt) else s.pc) ∧
    SameRegs s t ∧ JumpFrame s t

/-- The rows of the table of R95: the condition bits, and whether BR is taken with COND 000, 001, 010, 100. The first
column and the bit order are the spec's own (D5, R28; log entry 12). -/
def Obligations.BranchTableOfTheManual : Prop :=
  ∀ row ∈ [(0b000#3, [false, false, false, false]), (0b001#3, [false, true, false, false]),
           (0b010#3, [false, false, true, false]), (0b011#3, [false, true, true, false]),
           (0b100#3, [false, false, false, true]), (0b101#3, [false, true, false, true]),
           (0b110#3, [false, false, true, true]), (0b111#3, [false, true, true, true])],
    ∀ column ∈ List.zip [0b000#3, 0b001#3, 0b010#3, 0b100#3] row.2,
      ∀ (off : BitVec 9) (s : State), ∃ t, exec (.br row.1 off) { s with cond := column.1 } = .next t ∧
        t.pc = if column.2 then s.pcRel9 off else s.pc

/-- R91: JMP goes to the value of its base register, any of the 65,536, and changes nothing else. -/
def Obligations.JmpGoesToTheBase : Prop :=
  ∀ (base : Reg) (s : State), ∃ t, exec (.jmp base) s = .next t ∧ t.pc = s.reg base ∧ SameRegs s t ∧ JumpFrame s t

/-- R92 (the width 11 is D2): JSR writes the incremented `pc` in `x[7]` and adds the 11-bit offset to `pc`. -/
def Obligations.JsrLinksAndJumps : Prop :=
  ∀ (off : BitVec 11) (s : State), ∃ t, exec (.jsr off) s = .next t ∧ t.reg 7#3 = s.pc ∧
    t.pc = BitVec.ofInt 16 (s.pc.toNat + off.toInt) ∧ SameRegsBut 7#3 s t ∧ JumpFrame s t

/-- R93 (the order of the two writes is D19): JSRR writes the incremented `pc` in `x[7]` and goes to its base register;
with base 7 it reads the link just written and so goes to the next instruction. -/
def Obligations.JsrrLinksThenReadsTheBase : Prop :=
  ∀ (base : Reg) (s : State), ∃ t, exec (.jsrr base) s = .next t ∧ t.reg 7#3 = s.pc ∧
    t.pc = (if base = 7#3 then s.pc else s.reg base) ∧ SameRegsBut 7#3 s t ∧ JumpFrame s t

/-- R92, R93, R91 (95_test_vectors.md S7): after a call, JMP R7 in any later state that has kept `x[7]` goes to the
instruction after the call. -/
def Obligations.CallThenJmpR7Returns : Prop :=
  ∀ s t u : State, ((∃ off, exec (.jsr off) s = .next t) ∨ (∃ base, exec (.jsrr base) s = .next t)) →
    u.reg 7#3 = t.reg 7#3 → ∃ v, exec (.jmp 7#3) u = .next v ∧ v.pc = s.pc

/-! ### Loads and LEA -/

/-- R100: LD. -/
def Obligations.LdLoadsTheAddressedWord : Prop :=
  ∀ (dr : Reg) (off : BitVec 9) (s : State), ∃ t, exec (.ld dr off) s = .next t ∧
    t.reg dr = s.memRead (s.pcRel9 off) ∧ t.cond = flagOf (t.reg dr) ∧
    LoadFrame dr s (s.afterRead (s.pcRel9 off)) t ∧
    (s.pcRel9 off ≠ kbsrAddr → t.reg dr = s.cell (s.pcRel9 off) ∧ SameCells s t ∧ SameInput s t)

/-- R101: LDI reads the pointer, then the word it points to; either read may be of the status register and then
polls. -/
def Obligations.LdiLoadsThroughThePointer : Prop :=
  ∀ (dr : Reg) (off : BitVec 9) (s : State), ∃ t, exec (.ldi dr off) s = .next t ∧
    t.reg dr = (s.afterRead (s.pcRel9 off)).memRead (s.memRead (s.pcRel9 off)) ∧ t.cond = flagOf (t.reg dr) ∧
    LoadFrame dr s ((s.afterRead (s.pcRel9 off)).afterRead (s.memRead (s.pcRel9 off))) t ∧
    (s.pcRel9 off ≠ kbsrAddr → s.cell (s.pcRel9 off) ≠ kbsrAddr →
      t.reg dr = s.cell (s.cell (s.pcRel9 off)) ∧ SameCells s t ∧ SameInput s t)

/-- R102: LDR; the address is formed from the base register before DR is written, also when they are the same. -/
def Obligations.LdrLoadsFromBasePlusOffset : Prop :=
  ∀ (dr base : Reg) (off : BitVec 6) (s : State), ∃ t, exec (.ldr dr base off) s = .next t ∧
    t.reg dr = s.memRead (s.baseOff6 base off) ∧ t.cond = flagOf (t.reg dr) ∧
    LoadFrame dr s (s.afterRead (s.baseOff6 base off)) t ∧
    (s.baseOff6 base off ≠ kbsrAddr → t.reg dr = s.cell (s.baseOff6 base off) ∧ SameCells s t ∧ SameInput s t)

/-- R103: LEA writes the address itself and sets the flags from it; no memory access, so no poll. -/
def Obligations.LeaWritesTheAddressAndFlags : Prop :=
  ∀ (dr : Reg) (off : BitVec 9) (s : State), ∃ t, exec (.lea dr off) s = .next t ∧
    t.reg dr = BitVec.ofInt 16 (s.pc.toNat + off.toInt) ∧ t.cond = flagOf (t.reg dr) ∧ OperateFrame dr s t

/-! ### Stores -/

/-- R110: ST stores SR at the PC-relative address, an ordinary write at every address. -/
def Obligations.StStoresAtThePcRelativeAddress : Prop :=
  ∀ (sr : Reg) (off : BitVec 9) (s : State), ∃ t, exec (.st sr off) s = .next t ∧
    t.cell (s.pcRel9 off) = s.reg sr ∧ StoreFrame (s.pcRel9 off) s t

/-- R111: STI reads the pointer, then stores SR at the address it holds. A pointer read at the status register polls
first, and the store then goes to the word that poll returned. -/
def Obligations.StiStoresThroughThePointer : Prop :=
  ∀ (sr : Reg) (off : BitVec 9) (s : State), ∃ t, exec (.sti sr off) s = .next t ∧
    t.cell (s.indirect9 off) = s.reg sr ∧ StoreFrame (s.indirect9 off) (s.afterPointer off) t ∧
    SameRegs s t ∧ t.pc = s.pc ∧ t.cond = s.cond ∧ SameControl s t ∧ SameParams s t ∧ t.conOut = s.conOut ∧
    SameCellsButDevicesAnd (s.indirect9 off) s t ∧
    (s.pcRel9 off ≠ kbsrAddr → s.indirect9 off = s.cell (s.pcRel9 off) ∧ StoreFrame (s.indirect9 off) s t)

/-- R112: STR stores SR at base plus offset. -/
def Obligations.StrStoresAtBasePlusOffset : Prop :=
  ∀ (sr base : Reg) (off : BitVec 6) (s : State), ∃ t, exec (.str sr base off) s = .next t ∧
    t.cell (s.baseOff6 base off) = s.reg sr ∧ StoreFrame (s.baseOff6 base off) s t

/-! ### The trap routines -/

/-- R121 (D13, D14, D20): GETC stores the next byte of the input, extended with zeros, in `x[0]`, with no echo, no
flags and no link; where the state lists no byte and the stream goes on the byte is some byte of the host's (log entry
6); after the end of the stream it stores the parameter's word. -/
def Obligations.GetcStoresTheNextByte : Prop :=
  ∀ s : State,
    (∀ b rest, s.kbdIn = b :: rest → ∃ t, exec .trapGetc s = .next t ∧ (t.reg 0#3).toNat = b.toNat ∧
      t.kbdIn = rest ∧ t.kbdTaken = s.kbdTaken + 1 ∧ t.conOut = s.conOut ∧ InputFrame s t) ∧
    (s.kbdIn = [] → s.kbdEnded = false → ∃ t, exec .trapGetc s = .next t ∧ (∃ b : Byte, t.reg 0#3 = BitVec.ofNat 16 b.toNat) ∧
      t.kbdIn = [] ∧ t.kbdTaken = s.kbdTaken + 1 ∧ t.conOut = s.conOut ∧ InputFrame s t) ∧
    (∀ w, s.kbdIn = [] → s.kbdEnded = true → s.consoleEof = .value w → ∃ t, exec .trapGetc s = .next t ∧
      t.reg 0#3 = w ∧ SameInput s t ∧ t.conOut = s.conOut ∧ InputFrame s t)

/-- R122: OUT writes the low byte of `x[0]` and flushes. -/
def Obligations.OutWritesTheLowByte : Prop :=
  ∀ s : State, ∃ t, exec .trapOut s = .next t ∧
    t.conOut = s.conOut ++ [.put (BitVec.ofNat 8 (s.reg 0#3).toNat), .flush] ∧ OutputFrame s t

/-- R123, for a string that does not cross the status register: PUTS writes the low byte of each word up to the first
zero word, which it does not write, and flushes; `x[0]` and memory stay. -/
def Obligations.PutsWritesTheLowBytes : Prop :=
  ∀ (s : State) (ws : List Word),
    (∀ k (h : k < ws.length), s.cell (s.reg 0#3 + BitVec.ofNat 16 k) = ws[k] ∧ ws[k] ≠ 0x0000#16) →
    s.cell (s.reg 0#3 + BitVec.ofNat 16 ws.length) = 0x0000#16 →
    (∀ k, k ≤ ws.length → s.reg 0#3 + BitVec.ofNat 16 k ≠ kbsrAddr) →
    ∃ t, exec .trapPuts s = .next t ∧
      t.conOut = s.conOut ++ ws.map (fun w => .put (BitVec.ofNat 8 w.toNat)) ++ [.flush] ∧ OutputFrame s t

/-- R125, for a string that does not cross the status register: PUTSP writes of each word the low byte and then the high
byte if that is not zero, up to the first zero word, and flushes. -/
def Obligations.PutspWritesBothBytes : Prop :=
  ∀ (s : State) (ws : List Word),
    (∀ k (h : k < ws.length), s.cell (s.reg 0#3 + BitVec.ofNat 16 k) = ws[k] ∧ ws[k] ≠ 0x0000#16) →
    s.cell (s.reg 0#3 + BitVec.ofNat 16 ws.length) = 0x0000#16 →
    (∀ k, k ≤ ws.length → s.reg 0#3 + BitVec.ofNat 16 k ≠ kbsrAddr) →
    ∃ t, exec .trapPutsp s = .next t ∧
      t.conOut = s.conOut ++ (ws.flatMap (fun w =>
        if w.toNat < 256 then [.put (BitVec.ofNat 8 w.toNat)]
        else [.put (BitVec.ofNat 8 w.toNat), .put (BitVec.ofNat 8 (w.toNat / 256))])) ++ [.flush] ∧
      OutputFrame s t

/-- R123, R125 (D16; log entry 10): a string routine is the manual's loop, which has no bound, through the status
register too: it answers a next state exactly where the loop leaves, with what the loop leaves, flushed. The loop does
leave whenever the stream has ended or a listed poll answer is no. -/
def Obligations.StringRoutinesFollowTheLoop : Prop :=
  (∀ s t : State, exec .trapPuts s = .next t ↔
    ∃ u, PrintedString (fun w => [w.extractLsb' 0 8]) s (s.reg 0#3) u ∧ t = u.consoleFlush) ∧
  (∀ s t : State, exec .trapPutsp s = .next t ↔
    ∃ u, PrintedString (fun w => if w.extractLsb' 8 8 = 0x00#8 then [w.extractLsb' 0 8]
      else [w.extractLsb' 0 8, w.extractLsb' 8 8]) s (s.reg 0#3) u ∧ t = u.consoleFlush) ∧
  (∀ s : State, s.kbdEnded = true ∨ false ∈ s.pollAnswers →
    (∃ t, exec .trapPuts s = .next t) ∧ ∃ t, exec .trapPutsp s = .next t)

/-- R124 (D13, D14, D17, D20): IN writes the prompt and flushes, reads as GETC does, echoes and flushes, and stores the
character in `x[0]`. -/
def Obligations.InPromptsReadsAndEchoes : Prop :=
  ∀ s : State,
    (∀ b rest, s.kbdIn = b :: rest → ∃ t, exec .trapIn s = .next t ∧ (t.reg 0#3).toNat = b.toNat ∧
      t.kbdIn = rest ∧ t.kbdTaken = s.kbdTaken + 1 ∧
      t.conOut = s.conOut ++ s.inPrompt.map .put ++ [.flush, .put b, .flush] ∧ InputFrame s t) ∧
    (s.kbdIn = [] → s.kbdEnded = false → ∃ t, exec .trapIn s = .next t ∧ (∃ b : Byte, t.reg 0#3 = BitVec.ofNat 16 b.toNat ∧
      t.conOut = s.conOut ++ s.inPrompt.map .put ++ [.flush, .put b, .flush]) ∧
      t.kbdIn = [] ∧ t.kbdTaken = s.kbdTaken + 1 ∧ InputFrame s t) ∧
    (∀ w, s.kbdIn = [] → s.kbdEnded = true → s.consoleEof = .value w → ∃ t, exec .trapIn s = .next t ∧
      t.reg 0#3 = w ∧ SameInput s t ∧
      t.conOut = s.conOut ++ s.inPrompt.map .put ++ [.flush, .put (BitVec.ofNat 8 w.toNat), .flush] ∧
      InputFrame s t)

/-- R24, R124 corner case (c) (D14; log entry 9): after the end of the input, with `CONSOLE_EOF` stuck, GETC and IN have
no successor; IN's prompt is in the output while it waits. -/
def Obligations.BlockedReadHasNoSuccessor : Prop :=
  ∀ s : State, s.kbdIn = [] → s.kbdEnded = true → s.consoleEof = .stuck →
    exec .trapGetc s = .fault (.inputNeverComes s.conOut) ∧
    exec .trapIn s = .fault (.inputNeverComes (s.conOut ++ s.inPrompt.map .put ++ [.flush]))

/-- R126 (D10, D18): HALT sets `RUN` to HALTED and changes nothing else; nothing is written to the console. -/
def Obligations.HaltStopsTheLoop : Prop :=
  ∀ s : State, ∃ t, exec .trapHalt s = .next t ∧ t.run = .halted ∧ t.faultCause = s.faultCause ∧
    t.faultInstr = s.faultInstr ∧ FaultFrame s t

/-- R127, R135, R136, R140, R141 (the causes' codes and the latches are D11): TRAP with an undefined vector, RES and RTI
take the decode fault: the cause and the latched word are recorded, `RUN` is FAULTED, and nothing else changes. -/
def Obligations.FatalInstructionsTakeTheDecodeFault : Prop :=
  ∀ s : State,
    (∃ t, exec .res s = .next t ∧ t.run = .faulted ∧ t.faultCause = some .reservedOpcode ∧
      t.faultCause.map FaultCause.code = some 1 ∧ t.faultInstr = some s.instr ∧ FaultFrame s t) ∧
    (∃ t, exec .rti s = .next t ∧ t.run = .faulted ∧ t.faultCause = some .unimplementedOpcode ∧
      t.faultCause.map FaultCause.code = some 2 ∧ t.faultInstr = some s.instr ∧ FaultFrame s t) ∧
    (∀ v, undefinedVector v = true → ∃ t, exec (.trap v) s = .next t ∧ t.run = .faulted ∧
      t.faultCause = some .undefinedTrapVector ∧ t.faultCause.map FaultCause.code = some 3 ∧
      t.faultInstr = some s.instr ∧ FaultFrame s t)

/-! ### Reset and launch -/

/-- R28, R160 (`PC_RESET` at its default, D8; `RUN` and the latches are D10, D11): the values right after reset. -/
def Obligations.ResetValuesOfTheManual : Prop :=
  (∀ r : Reg, State.reset.reg r = 0x0000#16) ∧ State.reset.cond = 0b000#3 ∧ State.reset.pc = 0x3000#16 ∧
  (∀ a : Word, State.reset.cell a = 0x0000#16) ∧ State.reset.run = .running ∧
  State.reset.faultCause = none ∧ State.reset.faultInstr = none ∧ State.reset.conOut = []

/-- R160, R164, R161 (D8, D9): the launch state: `pc` at `PC_RESET`, memory zero but for the image (of two words for one
address the later one stays, the model's choice, log entry 5); the other launch parameters in their fields (D13, D14,
D17; their form is the model's, log entries 6, 7, 8); registers, COND, `RUN` and the output as after reset. -/
def Obligations.LaunchOverlaysTheImage : Prop :=
  ∀ p : LaunchParams,
    (State.launch p).pc = p.pcReset ∧
    (∀ a : Word, (State.launch p).cell a =
      ((p.image.reverse.find? (fun c => decide (c.1 = a))).map Prod.snd).getD 0x0000#16) ∧
    (∀ r : Reg, (State.launch p).reg r = 0x0000#16) ∧ (State.launch p).cond = 0b000#3 ∧
    (State.launch p).run = .running ∧ (State.launch p).faultCause = none ∧
    (State.launch p).faultInstr = none ∧ (State.launch p).conOut = [] ∧
    (State.launch p).inPrompt = p.inPrompt ∧ (State.launch p).consoleEof = p.consoleEof ∧
    (State.launch p).kbdIn = p.kbdIn ∧ (State.launch p).kbdEnded = p.kbdEnded ∧
    (State.launch p).pollAnswers = p.pollAnswers

/-- R165, R164: the launch state of an image file: the first big-endian word of the file is the origin, where execution
starts, and the others stand at consecutive addresses from it. -/
def Obligations.ImageFileIsLoadedFromItsOrigin : Prop :=
  ∀ (bytes : List Byte) (p : LaunchParams), LaunchParams.ofImageFile bytes = some p →
    ∃ (origin : Word) (words : List Word),
      bytes = (origin :: words).flatMap (fun w => [BitVec.ofNat 8 (w.toNat / 256), BitVec.ofNat 8 w.toNat]) ∧
      (State.launch p).pc = origin ∧
      ∀ k (h : k < words.length), (State.launch p).cell (origin + BitVec.ofNat 16 k) = words[k]
end

