-- ==== Sys2Proof/Laws/Decode.lean ====
section
/-! SUPPORT. The fields of an encoded word: each layout gives back what was laid out. -/

namespace Sys2Proof

/-- The opcode map and the numbers agree. -/
theorem opcodeMap_number (o : Opcode) : opcodeMap[o.number.toNat]'o.number.isLt = o := by cases o <;> rfl

theorem number_opcodeMap : ∀ n : BitVec 4, (opcodeMap[n.toNat]'n.isLt).number = n := by decide

theorem opcodeOf_eq (w : Word) (o : Opcode) (h : w.extractLsb' 12 4 = o.number) : opcodeOf w = o := by
  unfold opcodeOf
  have := opcodeMap_number o
  simp only [h, this]

/-! ### Layout with two registers -/

theorem layoutRegs_top (o : Opcode) (a b : BitVec 3) (c : BitVec 6) :
    (layoutRegs o a b c).extractLsb' 12 4 = o.number := by
  unfold layoutRegs
  rw [BitVec.extractLsb'_append_eq_of_le (by omega), BitVec.extractLsb'_append_eq_of_le (by omega),
    BitVec.extractLsb'_append_eq_of_le (by omega)]
  simp

theorem layoutRegs_high (o : Opcode) (a b : BitVec 3) (c : BitVec 6) :
    (layoutRegs o a b c).extractLsb' 9 3 = a := by
  unfold layoutRegs
  rw [BitVec.extractLsb'_append_eq_of_le (by omega), BitVec.extractLsb'_append_eq_of_le (by omega),
    BitVec.extractLsb'_append_eq_of_add_le (by omega)]
  simp

theorem layoutRegs_mid (o : Opcode) (a b : BitVec 3) (c : BitVec 6) :
    (layoutRegs o a b c).extractLsb' 6 3 = b := by
  unfold layoutRegs
  rw [BitVec.extractLsb'_append_eq_of_le (by omega), BitVec.extractLsb'_append_eq_of_add_le (by omega)]
  simp

theorem layoutRegs_low (o : Opcode) (a b : BitVec 3) (c : BitVec 6) (n : Nat) (h : n ≤ 6) :
    (layoutRegs o a b c).extractLsb' 0 n = c.extractLsb' 0 n := by
  unfold layoutRegs
  rw [BitVec.extractLsb'_append_eq_of_add_le (by omega)]

theorem layoutRegs_bit (o : Opcode) (a b : BitVec 3) (c : BitVec 6) (i : Nat) (h : i < 6) :
    (layoutRegs o a b c).getLsbD i = c.getLsbD i := by
  unfold layoutRegs
  rw [BitVec.getLsbD_append, if_pos h]

/-! ### Layout with a 9-bit offset -/

theorem layoutOff9_top (o : Opcode) (a : BitVec 3) (c : BitVec 9) :
    (layoutOff9 o a c).extractLsb' 12 4 = o.number := by
  unfold layoutOff9
  rw [BitVec.extractLsb'_append_eq_of_le (by omega), BitVec.extractLsb'_append_eq_of_le (by omega)]
  simp

theorem layoutOff9_high (o : Opcode) (a : BitVec 3) (c : BitVec 9) : (layoutOff9 o a c).extractLsb' 9 3 = a := by
  unfold layoutOff9
  rw [BitVec.extractLsb'_append_eq_of_le (by omega), BitVec.extractLsb'_append_eq_of_add_le (by omega)]
  simp

theorem layoutOff9_low (o : Opcode) (a : BitVec 3) (c : BitVec 9) : (layoutOff9 o a c).extractLsb' 0 9 = c := by
  unfold layoutOff9
  rw [BitVec.extractLsb'_append_eq_of_add_le (by omega)]
  simp

/-! ### Layout of opcode 0x4 with an 11-bit offset -/

theorem layoutJump_top (o : Opcode) (f : BitVec 1) (c : BitVec 11) :
    (layoutJump o f c).extractLsb' 12 4 = o.number := by
  unfold layoutJump
  rw [BitVec.extractLsb'_append_eq_of_le (by omega), BitVec.extractLsb'_append_eq_of_le (by omega)]
  simp

theorem layoutJump_flag (o : Opcode) (f : BitVec 1) (c : BitVec 11) :
    (layoutJump o f c).getLsbD 11 = f.getLsbD 0 := by
  unfold layoutJump
  rw [BitVec.getLsbD_append, if_neg (by omega), BitVec.getLsbD_append, if_pos (by omega)]

theorem layoutJump_low (o : Opcode) (f : BitVec 1) (c : BitVec 11) : (layoutJump o f c).extractLsb' 0 11 = c := by
  unfold layoutJump
  rw [BitVec.extractLsb'_append_eq_of_add_le (by omega)]
  simp

/-- In the layout with two registers bit 11 is the top bit of the first. -/
theorem layoutRegs_flag (o : Opcode) (a b : BitVec 3) (c : BitVec 6) :
    (layoutRegs o a b c).getLsbD 11 = a.getLsbD 2 := by
  unfold layoutRegs
  rw [BitVec.getLsbD_append, if_neg (by omega), BitVec.getLsbD_append, if_neg (by omega), BitVec.getLsbD_append,
    if_pos (by omega)]

/-! ### Layout with a trap vector -/

theorem layoutVec_top (o : Opcode) (v : BitVec 8) : (layoutVec o v).extractLsb' 12 4 = o.number := by
  unfold layoutVec
  rw [BitVec.extractLsb'_append_eq_of_le (by omega), BitVec.extractLsb'_append_eq_of_le (by omega)]
  simp

theorem layoutVec_low (o : Opcode) (v : BitVec 8) : (layoutVec o v).extractLsb' 0 8 = v := by
  unfold layoutVec
  rw [BitVec.extractLsb'_append_eq_of_add_le (by omega)]
  simp

end Sys2Proof
end

