-- ==== Sys2Proof/Laws/State.lean ====
section
/-! SUPPORT. One lemma per field per update of the state, each true by rfl, so that no later proof unfolds a record
update. -/

namespace Sys2Proof.Machine

/-! ### setReg -/

@[simp] theorem State.setReg_regs (s : State) (r : Reg) (v : Word) : (s.setReg r v).regs = s.regs.set r.toNat v r.isLt := rfl
@[simp] theorem State.setReg_pc (s : State) (r : Reg) (v : Word) : (s.setReg r v).pc = s.pc := rfl
@[simp] theorem State.setReg_cond (s : State) (r : Reg) (v : Word) : (s.setReg r v).cond = s.cond := rfl
@[simp] theorem State.setReg_mem (s : State) (r : Reg) (v : Word) : (s.setReg r v).mem = s.mem := rfl
@[simp] theorem State.setReg_run (s : State) (r : Reg) (v : Word) : (s.setReg r v).run = s.run := rfl
@[simp] theorem State.setReg_faultCause (s : State) (r : Reg) (v : Word) : (s.setReg r v).faultCause = s.faultCause := rfl
@[simp] theorem State.setReg_faultInstr (s : State) (r : Reg) (v : Word) : (s.setReg r v).faultInstr = s.faultInstr := rfl
@[simp] theorem State.setReg_instr (s : State) (r : Reg) (v : Word) : (s.setReg r v).instr = s.instr := rfl
@[simp] theorem State.setReg_kbdIn (s : State) (r : Reg) (v : Word) : (s.setReg r v).kbdIn = s.kbdIn := rfl
@[simp] theorem State.setReg_kbdEnded (s : State) (r : Reg) (v : Word) : (s.setReg r v).kbdEnded = s.kbdEnded := rfl
@[simp] theorem State.setReg_kbdTaken (s : State) (r : Reg) (v : Word) : (s.setReg r v).kbdTaken = s.kbdTaken := rfl
@[simp] theorem State.setReg_pollAnswers (s : State) (r : Reg) (v : Word) : (s.setReg r v).pollAnswers = s.pollAnswers := rfl
@[simp] theorem State.setReg_pollsDone (s : State) (r : Reg) (v : Word) : (s.setReg r v).pollsDone = s.pollsDone := rfl
@[simp] theorem State.setReg_conOut (s : State) (r : Reg) (v : Word) : (s.setReg r v).conOut = s.conOut := rfl
@[simp] theorem State.setReg_inPrompt (s : State) (r : Reg) (v : Word) : (s.setReg r v).inPrompt = s.inPrompt := rfl
@[simp] theorem State.setReg_consoleEof (s : State) (r : Reg) (v : Word) : (s.setReg r v).consoleEof = s.consoleEof := rfl

/-! ### setPc -/

@[simp] theorem State.setPc_regs (s : State) (a : Word) : (s.setPc a).regs = s.regs := rfl
@[simp] theorem State.setPc_pc (s : State) (a : Word) : (s.setPc a).pc = a := rfl
@[simp] theorem State.setPc_cond (s : State) (a : Word) : (s.setPc a).cond = s.cond := rfl
@[simp] theorem State.setPc_mem (s : State) (a : Word) : (s.setPc a).mem = s.mem := rfl
@[simp] theorem State.setPc_run (s : State) (a : Word) : (s.setPc a).run = s.run := rfl
@[simp] theorem State.setPc_faultCause (s : State) (a : Word) : (s.setPc a).faultCause = s.faultCause := rfl
@[simp] theorem State.setPc_faultInstr (s : State) (a : Word) : (s.setPc a).faultInstr = s.faultInstr := rfl
@[simp] theorem State.setPc_instr (s : State) (a : Word) : (s.setPc a).instr = s.instr := rfl
@[simp] theorem State.setPc_kbdIn (s : State) (a : Word) : (s.setPc a).kbdIn = s.kbdIn := rfl
@[simp] theorem State.setPc_kbdEnded (s : State) (a : Word) : (s.setPc a).kbdEnded = s.kbdEnded := rfl
@[simp] theorem State.setPc_kbdTaken (s : State) (a : Word) : (s.setPc a).kbdTaken = s.kbdTaken := rfl
@[simp] theorem State.setPc_pollAnswers (s : State) (a : Word) : (s.setPc a).pollAnswers = s.pollAnswers := rfl
@[simp] theorem State.setPc_pollsDone (s : State) (a : Word) : (s.setPc a).pollsDone = s.pollsDone := rfl
@[simp] theorem State.setPc_conOut (s : State) (a : Word) : (s.setPc a).conOut = s.conOut := rfl
@[simp] theorem State.setPc_inPrompt (s : State) (a : Word) : (s.setPc a).inPrompt = s.inPrompt := rfl
@[simp] theorem State.setPc_consoleEof (s : State) (a : Word) : (s.setPc a).consoleEof = s.consoleEof := rfl

/-! ### setCC -/

@[simp] theorem State.setCC_regs (s : State) (v : Word) : (s.setCC v).regs = s.regs := rfl
@[simp] theorem State.setCC_pc (s : State) (v : Word) : (s.setCC v).pc = s.pc := rfl
@[simp] theorem State.setCC_cond (s : State) (v : Word) : (s.setCC v).cond = flagOf v := rfl
@[simp] theorem State.setCC_mem (s : State) (v : Word) : (s.setCC v).mem = s.mem := rfl
@[simp] theorem State.setCC_run (s : State) (v : Word) : (s.setCC v).run = s.run := rfl
@[simp] theorem State.setCC_faultCause (s : State) (v : Word) : (s.setCC v).faultCause = s.faultCause := rfl
@[simp] theorem State.setCC_faultInstr (s : State) (v : Word) : (s.setCC v).faultInstr = s.faultInstr := rfl
@[simp] theorem State.setCC_instr (s : State) (v : Word) : (s.setCC v).instr = s.instr := rfl
@[simp] theorem State.setCC_kbdIn (s : State) (v : Word) : (s.setCC v).kbdIn = s.kbdIn := rfl
@[simp] theorem State.setCC_kbdEnded (s : State) (v : Word) : (s.setCC v).kbdEnded = s.kbdEnded := rfl
@[simp] theorem State.setCC_kbdTaken (s : State) (v : Word) : (s.setCC v).kbdTaken = s.kbdTaken := rfl
@[simp] theorem State.setCC_pollAnswers (s : State) (v : Word) : (s.setCC v).pollAnswers = s.pollAnswers := rfl
@[simp] theorem State.setCC_pollsDone (s : State) (v : Word) : (s.setCC v).pollsDone = s.pollsDone := rfl
@[simp] theorem State.setCC_conOut (s : State) (v : Word) : (s.setCC v).conOut = s.conOut := rfl
@[simp] theorem State.setCC_inPrompt (s : State) (v : Word) : (s.setCC v).inPrompt = s.inPrompt := rfl
@[simp] theorem State.setCC_consoleEof (s : State) (v : Word) : (s.setCC v).consoleEof = s.consoleEof := rfl

/-! ### setCell -/

@[simp] theorem State.setCell_regs (s : State) (a v : Word) : (s.setCell a v).regs = s.regs := rfl
@[simp] theorem State.setCell_pc (s : State) (a v : Word) : (s.setCell a v).pc = s.pc := rfl
@[simp] theorem State.setCell_cond (s : State) (a v : Word) : (s.setCell a v).cond = s.cond := rfl
@[simp] theorem State.setCell_mem (s : State) (a v : Word) : (s.setCell a v).mem = Memory.set s.mem a.toNat v := rfl
@[simp] theorem State.setCell_run (s : State) (a v : Word) : (s.setCell a v).run = s.run := rfl
@[simp] theorem State.setCell_faultCause (s : State) (a v : Word) : (s.setCell a v).faultCause = s.faultCause := rfl
@[simp] theorem State.setCell_faultInstr (s : State) (a v : Word) : (s.setCell a v).faultInstr = s.faultInstr := rfl
@[simp] theorem State.setCell_instr (s : State) (a v : Word) : (s.setCell a v).instr = s.instr := rfl
@[simp] theorem State.setCell_kbdIn (s : State) (a v : Word) : (s.setCell a v).kbdIn = s.kbdIn := rfl
@[simp] theorem State.setCell_kbdEnded (s : State) (a v : Word) : (s.setCell a v).kbdEnded = s.kbdEnded := rfl
@[simp] theorem State.setCell_kbdTaken (s : State) (a v : Word) : (s.setCell a v).kbdTaken = s.kbdTaken := rfl
@[simp] theorem State.setCell_pollAnswers (s : State) (a v : Word) : (s.setCell a v).pollAnswers = s.pollAnswers := rfl
@[simp] theorem State.setCell_pollsDone (s : State) (a v : Word) : (s.setCell a v).pollsDone = s.pollsDone := rfl
@[simp] theorem State.setCell_conOut (s : State) (a v : Word) : (s.setCell a v).conOut = s.conOut := rfl
@[simp] theorem State.setCell_inPrompt (s : State) (a v : Word) : (s.setCell a v).inPrompt = s.inPrompt := rfl
@[simp] theorem State.setCell_consoleEof (s : State) (a v : Word) : (s.setCell a v).consoleEof = s.consoleEof := rfl

/-! ### polled -/

@[simp] theorem State.polled_regs (s : State) : s.polled.regs = s.regs := rfl
@[simp] theorem State.polled_pc (s : State) : s.polled.pc = s.pc := rfl
@[simp] theorem State.polled_cond (s : State) : s.polled.cond = s.cond := rfl
@[simp] theorem State.polled_mem (s : State) : s.polled.mem = s.mem := rfl
@[simp] theorem State.polled_run (s : State) : s.polled.run = s.run := rfl
@[simp] theorem State.polled_faultCause (s : State) : s.polled.faultCause = s.faultCause := rfl
@[simp] theorem State.polled_faultInstr (s : State) : s.polled.faultInstr = s.faultInstr := rfl
@[simp] theorem State.polled_instr (s : State) : s.polled.instr = s.instr := rfl
@[simp] theorem State.polled_kbdIn (s : State) : s.polled.kbdIn = s.kbdIn := rfl
@[simp] theorem State.polled_kbdEnded (s : State) : s.polled.kbdEnded = s.kbdEnded := rfl
@[simp] theorem State.polled_kbdTaken (s : State) : s.polled.kbdTaken = s.kbdTaken := rfl
@[simp] theorem State.polled_pollAnswers (s : State) : s.polled.pollAnswers = s.pollAnswers.tail := rfl
@[simp] theorem State.polled_pollsDone (s : State) : s.polled.pollsDone = s.pollsDone + 1 := rfl
@[simp] theorem State.polled_conOut (s : State) : s.polled.conOut = s.conOut := rfl
@[simp] theorem State.polled_inPrompt (s : State) : s.polled.inPrompt = s.inPrompt := rfl
@[simp] theorem State.polled_consoleEof (s : State) : s.polled.consoleEof = s.consoleEof := rfl

/-! ### consolePut -/

@[simp] theorem State.consolePut_regs (s : State) (b : Byte) : (s.consolePut b).regs = s.regs := rfl
@[simp] theorem State.consolePut_pc (s : State) (b : Byte) : (s.consolePut b).pc = s.pc := rfl
@[simp] theorem State.consolePut_cond (s : State) (b : Byte) : (s.consolePut b).cond = s.cond := rfl
@[simp] theorem State.consolePut_mem (s : State) (b : Byte) : (s.consolePut b).mem = s.mem := rfl
@[simp] theorem State.consolePut_run (s : State) (b : Byte) : (s.consolePut b).run = s.run := rfl
@[simp] theorem State.consolePut_faultCause (s : State) (b : Byte) : (s.consolePut b).faultCause = s.faultCause := rfl
@[simp] theorem State.consolePut_faultInstr (s : State) (b : Byte) : (s.consolePut b).faultInstr = s.faultInstr := rfl
@[simp] theorem State.consolePut_instr (s : State) (b : Byte) : (s.consolePut b).instr = s.instr := rfl
@[simp] theorem State.consolePut_kbdIn (s : State) (b : Byte) : (s.consolePut b).kbdIn = s.kbdIn := rfl
@[simp] theorem State.consolePut_kbdEnded (s : State) (b : Byte) : (s.consolePut b).kbdEnded = s.kbdEnded := rfl
@[simp] theorem State.consolePut_kbdTaken (s : State) (b : Byte) : (s.consolePut b).kbdTaken = s.kbdTaken := rfl
@[simp] theorem State.consolePut_pollAnswers (s : State) (b : Byte) : (s.consolePut b).pollAnswers = s.pollAnswers := rfl
@[simp] theorem State.consolePut_pollsDone (s : State) (b : Byte) : (s.consolePut b).pollsDone = s.pollsDone := rfl
@[simp] theorem State.consolePut_conOut (s : State) (b : Byte) : (s.consolePut b).conOut = s.conOut ++ [.put b] := rfl
@[simp] theorem State.consolePut_inPrompt (s : State) (b : Byte) : (s.consolePut b).inPrompt = s.inPrompt := rfl
@[simp] theorem State.consolePut_consoleEof (s : State) (b : Byte) : (s.consolePut b).consoleEof = s.consoleEof := rfl

/-! ### consolePutAll -/

@[simp] theorem State.consolePutAll_regs (s : State) (bs : List Byte) : (s.consolePutAll bs).regs = s.regs := rfl
@[simp] theorem State.consolePutAll_pc (s : State) (bs : List Byte) : (s.consolePutAll bs).pc = s.pc := rfl
@[simp] theorem State.consolePutAll_cond (s : State) (bs : List Byte) : (s.consolePutAll bs).cond = s.cond := rfl
@[simp] theorem State.consolePutAll_mem (s : State) (bs : List Byte) : (s.consolePutAll bs).mem = s.mem := rfl
@[simp] theorem State.consolePutAll_run (s : State) (bs : List Byte) : (s.consolePutAll bs).run = s.run := rfl
@[simp] theorem State.consolePutAll_faultCause (s : State) (bs : List Byte) : (s.consolePutAll bs).faultCause = s.faultCause := rfl
@[simp] theorem State.consolePutAll_faultInstr (s : State) (bs : List Byte) : (s.consolePutAll bs).faultInstr = s.faultInstr := rfl
@[simp] theorem State.consolePutAll_instr (s : State) (bs : List Byte) : (s.consolePutAll bs).instr = s.instr := rfl
@[simp] theorem State.consolePutAll_kbdIn (s : State) (bs : List Byte) : (s.consolePutAll bs).kbdIn = s.kbdIn := rfl
@[simp] theorem State.consolePutAll_kbdEnded (s : State) (bs : List Byte) : (s.consolePutAll bs).kbdEnded = s.kbdEnded := rfl
@[simp] theorem State.consolePutAll_kbdTaken (s : State) (bs : List Byte) : (s.consolePutAll bs).kbdTaken = s.kbdTaken := rfl
@[simp] theorem State.consolePutAll_pollAnswers (s : State) (bs : List Byte) : (s.consolePutAll bs).pollAnswers = s.pollAnswers := rfl
@[simp] theorem State.consolePutAll_pollsDone (s : State) (bs : List Byte) : (s.consolePutAll bs).pollsDone = s.pollsDone := rfl
@[simp] theorem State.consolePutAll_conOut (s : State) (bs : List Byte) : (s.consolePutAll bs).conOut = s.conOut ++ bs.map .put := rfl
@[simp] theorem State.consolePutAll_inPrompt (s : State) (bs : List Byte) : (s.consolePutAll bs).inPrompt = s.inPrompt := rfl
@[simp] theorem State.consolePutAll_consoleEof (s : State) (bs : List Byte) : (s.consolePutAll bs).consoleEof = s.consoleEof := rfl

/-! ### consoleFlush -/

@[simp] theorem State.consoleFlush_regs (s : State) : s.consoleFlush.regs = s.regs := rfl
@[simp] theorem State.consoleFlush_pc (s : State) : s.consoleFlush.pc = s.pc := rfl
@[simp] theorem State.consoleFlush_cond (s : State) : s.consoleFlush.cond = s.cond := rfl
@[simp] theorem State.consoleFlush_mem (s : State) : s.consoleFlush.mem = s.mem := rfl
@[simp] theorem State.consoleFlush_run (s : State) : s.consoleFlush.run = s.run := rfl
@[simp] theorem State.consoleFlush_faultCause (s : State) : s.consoleFlush.faultCause = s.faultCause := rfl
@[simp] theorem State.consoleFlush_faultInstr (s : State) : s.consoleFlush.faultInstr = s.faultInstr := rfl
@[simp] theorem State.consoleFlush_instr (s : State) : s.consoleFlush.instr = s.instr := rfl
@[simp] theorem State.consoleFlush_kbdIn (s : State) : s.consoleFlush.kbdIn = s.kbdIn := rfl
@[simp] theorem State.consoleFlush_kbdEnded (s : State) : s.consoleFlush.kbdEnded = s.kbdEnded := rfl
@[simp] theorem State.consoleFlush_kbdTaken (s : State) : s.consoleFlush.kbdTaken = s.kbdTaken := rfl
@[simp] theorem State.consoleFlush_pollAnswers (s : State) : s.consoleFlush.pollAnswers = s.pollAnswers := rfl
@[simp] theorem State.consoleFlush_pollsDone (s : State) : s.consoleFlush.pollsDone = s.pollsDone := rfl
@[simp] theorem State.consoleFlush_conOut (s : State) : s.consoleFlush.conOut = s.conOut ++ [.flush] := rfl
@[simp] theorem State.consoleFlush_inPrompt (s : State) : s.consoleFlush.inPrompt = s.inPrompt := rfl
@[simp] theorem State.consoleFlush_consoleEof (s : State) : s.consoleFlush.consoleEof = s.consoleEof := rfl

/-! ### raiseDecodeFault -/

@[simp] theorem State.raiseDecodeFault_regs (s : State) (c : FaultCause) : (s.raiseDecodeFault c).regs = s.regs := rfl
@[simp] theorem State.raiseDecodeFault_pc (s : State) (c : FaultCause) : (s.raiseDecodeFault c).pc = s.pc := rfl
@[simp] theorem State.raiseDecodeFault_cond (s : State) (c : FaultCause) : (s.raiseDecodeFault c).cond = s.cond := rfl
@[simp] theorem State.raiseDecodeFault_mem (s : State) (c : FaultCause) : (s.raiseDecodeFault c).mem = s.mem := rfl
@[simp] theorem State.raiseDecodeFault_run (s : State) (c : FaultCause) : (s.raiseDecodeFault c).run = .faulted := rfl
@[simp] theorem State.raiseDecodeFault_faultCause (s : State) (c : FaultCause) : (s.raiseDecodeFault c).faultCause = some c := rfl
@[simp] theorem State.raiseDecodeFault_faultInstr (s : State) (c : FaultCause) : (s.raiseDecodeFault c).faultInstr = some s.instr := rfl
@[simp] theorem State.raiseDecodeFault_instr (s : State) (c : FaultCause) : (s.raiseDecodeFault c).instr = s.instr := rfl
@[simp] theorem State.raiseDecodeFault_kbdIn (s : State) (c : FaultCause) : (s.raiseDecodeFault c).kbdIn = s.kbdIn := rfl
@[simp] theorem State.raiseDecodeFault_kbdEnded (s : State) (c : FaultCause) : (s.raiseDecodeFault c).kbdEnded = s.kbdEnded := rfl
@[simp] theorem State.raiseDecodeFault_kbdTaken (s : State) (c : FaultCause) : (s.raiseDecodeFault c).kbdTaken = s.kbdTaken := rfl
@[simp] theorem State.raiseDecodeFault_pollAnswers (s : State) (c : FaultCause) : (s.raiseDecodeFault c).pollAnswers = s.pollAnswers := rfl
@[simp] theorem State.raiseDecodeFault_pollsDone (s : State) (c : FaultCause) : (s.raiseDecodeFault c).pollsDone = s.pollsDone := rfl
@[simp] theorem State.raiseDecodeFault_conOut (s : State) (c : FaultCause) : (s.raiseDecodeFault c).conOut = s.conOut := rfl
@[simp] theorem State.raiseDecodeFault_inPrompt (s : State) (c : FaultCause) : (s.raiseDecodeFault c).inPrompt = s.inPrompt := rfl
@[simp] theorem State.raiseDecodeFault_consoleEof (s : State) (c : FaultCause) : (s.raiseDecodeFault c).consoleEof = s.consoleEof := rfl

/-! ### halt -/

@[simp] theorem State.halt_regs (s : State) : s.halt.regs = s.regs := rfl
@[simp] theorem State.halt_pc (s : State) : s.halt.pc = s.pc := rfl
@[simp] theorem State.halt_cond (s : State) : s.halt.cond = s.cond := rfl
@[simp] theorem State.halt_mem (s : State) : s.halt.mem = s.mem := rfl
@[simp] theorem State.halt_run (s : State) : s.halt.run = .halted := rfl
@[simp] theorem State.halt_faultCause (s : State) : s.halt.faultCause = s.faultCause := rfl
@[simp] theorem State.halt_faultInstr (s : State) : s.halt.faultInstr = s.faultInstr := rfl
@[simp] theorem State.halt_instr (s : State) : s.halt.instr = s.instr := rfl
@[simp] theorem State.halt_kbdIn (s : State) : s.halt.kbdIn = s.kbdIn := rfl
@[simp] theorem State.halt_kbdEnded (s : State) : s.halt.kbdEnded = s.kbdEnded := rfl
@[simp] theorem State.halt_kbdTaken (s : State) : s.halt.kbdTaken = s.kbdTaken := rfl
@[simp] theorem State.halt_pollAnswers (s : State) : s.halt.pollAnswers = s.pollAnswers := rfl
@[simp] theorem State.halt_pollsDone (s : State) : s.halt.pollsDone = s.pollsDone := rfl
@[simp] theorem State.halt_conOut (s : State) : s.halt.conOut = s.conOut := rfl
@[simp] theorem State.halt_inPrompt (s : State) : s.halt.inPrompt = s.inPrompt := rfl
@[simp] theorem State.halt_consoleEof (s : State) : s.halt.consoleEof = s.consoleEof := rfl

/-! ### The register file -/

@[simp] theorem State.reg_setReg_same (s : State) (r : Reg) (v : Word) : (s.setReg r v).reg r = v := by
  simp [State.reg, State.setReg]

theorem State.reg_setReg_ne (s : State) {r q : Reg} (v : Word) (h : q ≠ r) : (s.setReg r v).reg q = s.reg q := by
  have h' : r.toNat ≠ q.toNat := fun e => h (BitVec.eq_of_toNat_eq e.symm)
  simp [State.reg, State.setReg, h']

/-- A register read depends on the register file alone. -/
theorem State.reg_congr {s t : State} (h : t.regs = s.regs) (r : Reg) : t.reg r = s.reg r := by
  simp [State.reg, h]

@[simp] theorem State.reg_setPc (s : State) (a : Word) (r : Reg) : (s.setPc a).reg r = s.reg r := rfl
@[simp] theorem State.reg_setCC (s : State) (v : Word) (r : Reg) : (s.setCC v).reg r = s.reg r := rfl
@[simp] theorem State.reg_setCell (s : State) (a v : Word) (r : Reg) : (s.setCell a v).reg r = s.reg r := rfl
@[simp] theorem State.reg_consolePut (s : State) (b : Byte) (r : Reg) : (s.consolePut b).reg r = s.reg r := rfl
@[simp] theorem State.reg_consoleFlush (s : State) (r : Reg) : s.consoleFlush.reg r = s.reg r := rfl
@[simp] theorem State.reg_consolePutAll (s : State) (bs : List Byte) (r : Reg) :
    (s.consolePutAll bs).reg r = s.reg r := rfl

/-- What an operate instruction leaves in the destination. -/
@[simp] theorem State.writeResult_reg_same (s : State) (dr : Reg) (v : Word) : (s.writeResult dr v).reg dr = v := by
  simp [State.writeResult]

theorem State.writeResult_reg_ne (s : State) {dr q : Reg} (v : Word) (h : q ≠ dr) :
    (s.writeResult dr v).reg q = s.reg q := by
  simp [State.writeResult, State.reg_setReg_ne s v h]

@[simp] theorem State.writeResult_cond (s : State) (dr : Reg) (v : Word) : (s.writeResult dr v).cond = flagOf v := by
  simp [State.writeResult]

@[simp] theorem State.writeResult_pc (s : State) (dr : Reg) (v : Word) : (s.writeResult dr v).pc = s.pc := rfl
@[simp] theorem State.writeResult_mem (s : State) (dr : Reg) (v : Word) : (s.writeResult dr v).mem = s.mem := rfl
@[simp] theorem State.writeResult_run (s : State) (dr : Reg) (v : Word) : (s.writeResult dr v).run = s.run := rfl
@[simp] theorem State.writeResult_faultCause (s : State) (dr : Reg) (v : Word) : (s.writeResult dr v).faultCause = s.faultCause := rfl
@[simp] theorem State.writeResult_faultInstr (s : State) (dr : Reg) (v : Word) : (s.writeResult dr v).faultInstr = s.faultInstr := rfl
@[simp] theorem State.writeResult_instr (s : State) (dr : Reg) (v : Word) : (s.writeResult dr v).instr = s.instr := rfl
@[simp] theorem State.writeResult_kbdIn (s : State) (dr : Reg) (v : Word) : (s.writeResult dr v).kbdIn = s.kbdIn := rfl
@[simp] theorem State.writeResult_kbdEnded (s : State) (dr : Reg) (v : Word) : (s.writeResult dr v).kbdEnded = s.kbdEnded := rfl
@[simp] theorem State.writeResult_kbdTaken (s : State) (dr : Reg) (v : Word) : (s.writeResult dr v).kbdTaken = s.kbdTaken := rfl
@[simp] theorem State.writeResult_pollAnswers (s : State) (dr : Reg) (v : Word) : (s.writeResult dr v).pollAnswers = s.pollAnswers := rfl
@[simp] theorem State.writeResult_pollsDone (s : State) (dr : Reg) (v : Word) : (s.writeResult dr v).pollsDone = s.pollsDone := rfl
@[simp] theorem State.writeResult_conOut (s : State) (dr : Reg) (v : Word) : (s.writeResult dr v).conOut = s.conOut := rfl
@[simp] theorem State.writeResult_inPrompt (s : State) (dr : Reg) (v : Word) : (s.writeResult dr v).inPrompt = s.inPrompt := rfl
@[simp] theorem State.writeResult_consoleEof (s : State) (dr : Reg) (v : Word) : (s.writeResult dr v).consoleEof = s.consoleEof := rfl

end Sys2Proof.Machine
end

