-- ==== Sys2Proof/Laws/Memory.lean ====
section
/-! SUPPORT. The laws of memory: a read after a write gives the value written, a write leaves every other cell alone, and
every write keeps the canonical form. -/

namespace Sys2Proof.Machine

theorem Memory.get_insert_same (m : Memory) (a : Nat) (v : Word) : Memory.get (Memory.insert m a v) a = v := by
  induction m with
  | nil => simp [Memory.insert, Memory.get]
  | cons c rest ih =>
    obtain ⟨k, w⟩ := c
    simp only [Memory.insert]
    split_ifs with h1 h2
    · simp [Memory.get]
    · simp [Memory.get]
    · have hk : k ≠ a := fun e => h2 e.symm
      simpa only [Memory.get, hk, if_false] using ih

theorem Memory.get_insert_ne (m : Memory) {a b : Nat} (v : Word) (h : b ≠ a) :
    Memory.get (Memory.insert m a v) b = Memory.get m b := by
  have hab : a ≠ b := h.symm
  induction m with
  | nil => simp [Memory.insert, Memory.get, hab]
  | cons c rest ih =>
    obtain ⟨k, w⟩ := c
    simp only [Memory.insert]
    split_ifs with h1 h2
    · simp [Memory.get, hab]
    · subst h2; simp [Memory.get, hab]
    · simp only [Memory.get, ih]

theorem Memory.get_filter (m : Memory) (a b : Nat) :
    Memory.get (m.filter (fun c => c.1 ≠ a)) b = if b = a then 0x0000#16 else Memory.get m b := by
  induction m with
  | nil => simp [Memory.get]
  | cons c rest ih =>
    obtain ⟨k, w⟩ := c
    by_cases hk : k = a
    · subst hk
      rw [List.filter_cons_of_neg (by simp), ih]
      by_cases hb : b = k
      · simp [hb]
      · simp [Memory.get, hb, Ne.symm hb]
    · rw [List.filter_cons_of_pos (by simpa using hk)]
      simp only [Memory.get, ih]
      by_cases hb : k = b
      · subst hb; simp [hk]
      · simp [hb]

/-- A read after a write to the same cell gives the value written. -/
theorem Memory.get_set_same (m : Memory) (a : Nat) (v : Word) : Memory.get (Memory.set m a v) a = v := by
  by_cases hv : v = 0x0000#16
  · simp only [Memory.set, hv, if_true]; rw [Memory.get_filter]; simp
  · simp only [Memory.set, hv, if_false]; exact Memory.get_insert_same m a v

/-- A write leaves every other cell alone. -/
theorem Memory.get_set_ne (m : Memory) {a b : Nat} (v : Word) (h : b ≠ a) :
    Memory.get (Memory.set m a v) b = Memory.get m b := by
  by_cases hv : v = 0x0000#16
  · simp only [Memory.set, hv, if_true]; rw [Memory.get_filter]; simp [h]
  · simp only [Memory.set, hv, if_false]; exact Memory.get_insert_ne m v h

/-- Every entry of a memory after an insertion is the inserted one or an old one. -/
theorem Memory.mem_insert (m : Memory) (a : Nat) (v : Word) (c : Nat × Word) (h : c ∈ Memory.insert m a v) :
    c = (a, v) ∨ c ∈ m := by
  induction m with
  | nil => simpa [Memory.insert] using h
  | cons d rest ih =>
    obtain ⟨k, w⟩ := d
    simp only [Memory.insert] at h
    split_ifs at h with h1 h2 <;> simp only [List.mem_cons] at h ⊢ <;> tauto

theorem Memory.insert_sorted (m : Memory) (a : Nat) (v : Word) (h : m.Pairwise (fun c d => c.1 < d.1)) :
    (Memory.insert m a v).Pairwise (fun c d => c.1 < d.1) := by
  induction m with
  | nil => simp [Memory.insert]
  | cons d rest ih =>
    obtain ⟨k, w⟩ := d
    have h' := List.pairwise_cons.mp h
    simp only [Memory.insert]
    split_ifs with h1 h2
    · refine List.pairwise_cons.mpr ⟨fun c hc => ?_, h⟩
      rcases List.mem_cons.mp hc with rfl | hc
      · exact h1
      · exact lt_trans h1 (h'.1 c hc)
    · subst h2; exact List.pairwise_cons.mpr ⟨h'.1, h'.2⟩
    · refine List.pairwise_cons.mpr ⟨fun c hc => ?_, ih h'.2⟩
      rcases Memory.mem_insert rest a v c hc with rfl | hc
      · show k < a; omega
      · exact h'.1 c hc

/-- A write keeps the canonical form. -/
theorem Memory.set_wf (m : Memory) (a : Nat) (v : Word) (ha : a < 65536) (h : m.wf) : Memory.wf (Memory.set m a v) := by
  by_cases hv : v = 0x0000#16
  · simp only [Memory.set, hv, if_true]
    exact ⟨h.1.filter _, fun c hc => h.2 c (List.mem_filter.mp hc).1⟩
  · simp only [Memory.set, hv, if_false]
    refine ⟨Memory.insert_sorted m a v h.1, fun c hc => ?_⟩
    rcases Memory.mem_insert m a v c hc with rfl | hc
    · exact ⟨ha, hv⟩
    · exact h.2 c hc

/-- The address of a word is one of the 65,536. -/
theorem Memory.set_word_wf (m : Memory) (a v : Word) (h : m.wf) : (Memory.set m a.toNat v).wf :=
  Memory.set_wf m a.toNat v (by simpa using a.isLt) h

/-- The memory right after reset has the canonical form. -/
theorem Memory.reset_wf : Memory.wf State.reset.mem := by decide

/-! ### Cells of the state -/

theorem State.setCell_wf (s : State) (a v : Word) (h : Memory.wf s.mem) : Memory.wf (s.setCell a v).mem :=
  Memory.set_word_wf s.mem a v h

@[simp] theorem State.cell_setCell_same (s : State) (a v : Word) : (s.setCell a v).cell a = v :=
  Memory.get_set_same s.mem a.toNat v

theorem State.cell_setCell_ne (s : State) {a b : Word} (v : Word) (h : b ≠ a) : (s.setCell a v).cell b = s.cell b :=
  Memory.get_set_ne s.mem v (fun e => h (BitVec.eq_of_toNat_eq e))

theorem State.cell_congr {s t : State} (h : t.mem = s.mem) (a : Word) : t.cell a = s.cell a := by
  simp [State.cell, h]

@[simp] theorem State.cell_setReg (s : State) (r : Reg) (v a : Word) : (s.setReg r v).cell a = s.cell a := rfl
@[simp] theorem State.cell_setPc (s : State) (p a : Word) : (s.setPc p).cell a = s.cell a := rfl
@[simp] theorem State.cell_writeResult (s : State) (r : Reg) (v a : Word) : (s.writeResult r v).cell a = s.cell a := rfl
@[simp] theorem State.cell_consolePutAll (s : State) (bs : List Byte) (a : Word) :
    (s.consolePutAll bs).cell a = s.cell a := rfl
@[simp] theorem State.cell_consoleFlush (s : State) (a : Word) : s.consoleFlush.cell a = s.cell a := rfl

end Sys2Proof.Machine
end

