-- ==== Sys2Proof/Laws/Ops.lean ====
section
/-! SUPPORT. What each shared operation can do, said once: the console, memory_interface, the fetch and the string loop. -/

namespace Sys2Proof.Machine

/-! ### The console -/

/-- Everything `nextByte` can do: the stream has ended, or a byte is consumed, which is the oldest listed one, or a free
one where none is listed. -/
theorem State.nextByte_cases (s : State) :
    (s.nextByte = none ∧ s.kbdIn = [] ∧ s.kbdEnded = true) ∨
    ∃ b, s.nextByte = some (b, { s with kbdIn := s.kbdIn.tail, kbdTaken := s.kbdTaken + 1 }) ∧
      (s.kbdIn = b :: s.kbdIn.tail ∨ (s.kbdIn = [] ∧ s.kbdEnded = false ∧ b = freeByte s.kbdTaken)) := by
  unfold State.nextByte
  rcases hk : s.kbdIn with _ | ⟨b, rest⟩
  · cases he : s.kbdEnded
    · refine .inr ⟨freeByte s.kbdTaken, ?_, .inr ⟨rfl, rfl, rfl⟩⟩
      cases s; simp_all
    · exact .inl ⟨by simp, rfl, rfl⟩
  · exact .inr ⟨b, rfl, .inl rfl⟩

/-- Everything a poll can do: it answers nothing and only counts, or it consumes the next byte. -/
theorem State.consolePoll_cases (s : State) :
    s.consolePoll = (none, s.polled) ∨
    ∃ b, s.consolePoll = (some b, { s.polled with kbdIn := s.kbdIn.tail, kbdTaken := s.kbdTaken + 1 }) ∧
      s.pollNow = true ∧
      (s.kbdIn = b :: s.kbdIn.tail ∨ (s.kbdIn = [] ∧ s.kbdEnded = false ∧ b = freeByte s.kbdTaken)) := by
  unfold State.consolePoll
  rcases s.polled.nextByte_cases with ⟨h, -⟩ | ⟨b, h, hb⟩
  · rw [h]; exact .inl rfl
  · rw [h]
    cases hp : s.pollNow
    · exact .inl (by simp)
    · exact .inr ⟨b, by simp, rfl, hb⟩

/-- What a poll answers, from the input fields alone. -/
theorem State.consolePoll_fst (s : State) :
    s.consolePoll.1 = if s.kbdIn = [] ∧ s.kbdEnded = true then none
      else if s.pollNow then some (s.kbdIn.headD (freeByte s.kbdTaken)) else none := by
  unfold State.consolePoll
  rcases s.polled.nextByte_cases with ⟨h, hk⟩ | ⟨b, h, hb⟩
  · have hk' : s.kbdIn = [] ∧ s.kbdEnded = true := hk
    rw [h, if_pos hk']
  · have hb' : s.kbdIn = b :: s.kbdIn.tail ∨ (s.kbdIn = [] ∧ s.kbdEnded = false ∧ b = freeByte s.kbdTaken) := hb
    have hn : ¬ (s.kbdIn = [] ∧ s.kbdEnded = true) := by
      rintro ⟨e, e'⟩
      rcases hb' with h1 | ⟨-, h1, -⟩
      · rw [e] at h1; cases h1
      · rw [e'] at h1; cases h1
    have hd : s.kbdIn.headD (freeByte s.kbdTaken) = b := by
      rcases hb' with h1 | ⟨h1, -, h2⟩
      · rw [h1]; rfl
      · rw [h1, h2]; rfl
    rw [h, if_neg hn, hd]
    cases s.pollNow <;> rfl

/-- Everything a blocking read can do: the next byte, the parameter's word after the end of the stream, or nothing. -/
theorem State.consoleGet_cases (s : State) :
    (∃ b t, s.consoleGet = some (zext16 b, t) ∧ s.nextByte = some (b, t)) ∨
    (∃ w, s.consoleGet = some (w, s) ∧ s.nextByte = none ∧ s.consoleEof = .value w) ∨
    (s.consoleGet = none ∧ s.nextByte = none ∧ s.consoleEof = .stuck) := by
  unfold State.consoleGet
  rcases h : s.nextByte with _ | ⟨b, t⟩
  · rcases he : s.consoleEof with _ | w
    · exact .inr (.inr ⟨rfl, rfl, rfl⟩)
    · exact .inr (.inl ⟨w, rfl, rfl, rfl⟩)
  · exact .inl ⟨b, t, rfl, rfl⟩

/-! ### The read side effect -/

/-- Everything a read of the status register can do: with no byte the status cell is cleared; with a byte the status
cell is set and the byte is consumed into the data cell. -/
theorem State.pollStatus_cases (s : State) :
    (s.consolePoll.1 = none ∧ s.pollStatus = s.polled.setCell kbsrAddr 0x0000#16) ∨
    ∃ b, s.consolePoll.1 = some b ∧ s.pollNow = true ∧
      (s.kbdIn = b :: s.kbdIn.tail ∨ (s.kbdIn = [] ∧ s.kbdEnded = false ∧ b = freeByte s.kbdTaken)) ∧
      s.pollStatus = (({ s.polled with kbdIn := s.kbdIn.tail, kbdTaken := s.kbdTaken + 1 } : State).setCell
        kbsrAddr 0x8000#16).setCell kbdrAddr (zext16 b) := by
  unfold State.pollStatus
  rcases s.consolePoll_cases with h | ⟨b, h, hp, hb⟩
  · rw [h]; exact .inl ⟨rfl, rfl⟩
  · rw [h]; exact .inr ⟨b, rfl, hp, hb, rfl⟩

/-- The state after a poll of the status register, field by field: only the memory and the input fields may differ. -/
theorem State.pollStatus_eq (s : State) :
    ∃ m ks n ps k, s.pollStatus =
      { s with mem := m, kbdIn := ks, kbdTaken := n, pollAnswers := ps, pollsDone := k } := by
  rcases s.pollStatus_cases with ⟨-, h⟩ | ⟨b, -, -, -, h⟩ <;> (rw [h]; exact ⟨_, _, _, _, _, rfl⟩)

/-- The state after a read, field by field: only the memory and the input fields may differ. -/
theorem State.afterRead_eq (s : State) (a : Word) :
    ∃ m ks n ps k, s.afterRead a =
      { s with mem := m, kbdIn := ks, kbdTaken := n, pollAnswers := ps, pollsDone := k } := by
  unfold State.afterRead
  split
  · exact s.pollStatus_eq
  · exact ⟨_, _, _, _, _, rfl⟩

theorem State.afterRead_of_ne (s : State) {a : Word} (h : a ≠ kbsrAddr) : s.afterRead a = s := by
  simp [State.afterRead, h]

theorem State.memRead_of_ne (s : State) {a : Word} (h : a ≠ kbsrAddr) : s.memRead a = s.cell a := by
  simp [State.memRead, s.afterRead_of_ne h]

@[simp] theorem State.afterRead_regs (s : State) (a : Word) : (s.afterRead a).regs = s.regs := by
  obtain ⟨m, ks, n, ps, k, h⟩ := s.afterRead_eq a; rw [h]

@[simp] theorem State.afterRead_pc (s : State) (a : Word) : (s.afterRead a).pc = s.pc := by
  obtain ⟨m, ks, n, ps, k, h⟩ := s.afterRead_eq a; rw [h]

@[simp] theorem State.afterRead_cond (s : State) (a : Word) : (s.afterRead a).cond = s.cond := by
  obtain ⟨m, ks, n, ps, k, h⟩ := s.afterRead_eq a; rw [h]

@[simp] theorem State.afterRead_run (s : State) (a : Word) : (s.afterRead a).run = s.run := by
  obtain ⟨m, ks, n, ps, k, h⟩ := s.afterRead_eq a; rw [h]

@[simp] theorem State.afterRead_faultCause (s : State) (a : Word) : (s.afterRead a).faultCause = s.faultCause := by
  obtain ⟨m, ks, n, ps, k, h⟩ := s.afterRead_eq a; rw [h]

@[simp] theorem State.afterRead_faultInstr (s : State) (a : Word) : (s.afterRead a).faultInstr = s.faultInstr := by
  obtain ⟨m, ks, n, ps, k, h⟩ := s.afterRead_eq a; rw [h]

@[simp] theorem State.afterRead_instr (s : State) (a : Word) : (s.afterRead a).instr = s.instr := by
  obtain ⟨m, ks, n, ps, k, h⟩ := s.afterRead_eq a; rw [h]

@[simp] theorem State.afterRead_kbdEnded (s : State) (a : Word) : (s.afterRead a).kbdEnded = s.kbdEnded := by
  obtain ⟨m, ks, n, ps, k, h⟩ := s.afterRead_eq a; rw [h]

@[simp] theorem State.afterRead_conOut (s : State) (a : Word) : (s.afterRead a).conOut = s.conOut := by
  obtain ⟨m, ks, n, ps, k, h⟩ := s.afterRead_eq a; rw [h]

@[simp] theorem State.afterRead_inPrompt (s : State) (a : Word) : (s.afterRead a).inPrompt = s.inPrompt := by
  obtain ⟨m, ks, n, ps, k, h⟩ := s.afterRead_eq a; rw [h]

@[simp] theorem State.afterRead_consoleEof (s : State) (a : Word) : (s.afterRead a).consoleEof = s.consoleEof := by
  obtain ⟨m, ks, n, ps, k, h⟩ := s.afterRead_eq a; rw [h]

@[simp] theorem State.reg_afterRead (s : State) (a : Word) (r : Reg) : (s.afterRead a).reg r = s.reg r :=
  State.reg_congr (s.afterRead_regs a) r

/-- A read keeps the canonical form of memory. -/
theorem State.afterRead_wf (s : State) (a : Word) (hm : Memory.wf s.mem) : Memory.wf (s.afterRead a).mem := by
  unfold State.afterRead
  split
  · rcases s.pollStatus_cases with ⟨-, h⟩ | ⟨b, -, -, -, h⟩ <;> rw [h]
    · exact State.setCell_wf _ _ _ hm
    · exact State.setCell_wf _ _ _ (State.setCell_wf _ _ _ hm)
  · exact hm

/-- A read changes no cell but the two device cells. -/
theorem State.cell_afterRead (s : State) (a b : Word) (hs : b ≠ kbsrAddr) (hd : b ≠ kbdrAddr) :
    (s.afterRead a).cell b = s.cell b := by
  unfold State.afterRead
  split
  · rcases s.pollStatus_cases with ⟨-, h⟩ | ⟨c, -, -, -, h⟩ <;> rw [h]
    · exact State.cell_setCell_ne _ _ hs
    · exact (State.cell_setCell_ne _ _ hd).trans (State.cell_setCell_ne _ _ hs)
  · rfl

/-- A read of the status register returns 0x8000 when the poll found a byte and 0x0000 when it did not. -/
theorem State.memRead_status (s : State) :
    s.memRead kbsrAddr = if s.consolePoll.1.isSome then 0x8000#16 else 0x0000#16 := by
  unfold State.memRead State.afterRead
  rw [if_pos rfl]
  unfold State.pollStatus
  rcases s.consolePoll with ⟨_ | b, t⟩
  · simp
  · simp [State.cell_setCell_ne _ _ (show kbsrAddr ≠ kbdrAddr by decide)]

/-! ### The fetch -/

@[simp] theorem State.fetch_regs (s : State) : s.fetch.regs = s.regs := s.afterRead_regs s.pc
@[simp] theorem State.fetch_cond (s : State) : s.fetch.cond = s.cond := s.afterRead_cond s.pc
@[simp] theorem State.fetch_run (s : State) : s.fetch.run = s.run := s.afterRead_run s.pc
@[simp] theorem State.fetch_faultCause (s : State) : s.fetch.faultCause = s.faultCause := s.afterRead_faultCause s.pc
@[simp] theorem State.fetch_faultInstr (s : State) : s.fetch.faultInstr = s.faultInstr := s.afterRead_faultInstr s.pc
@[simp] theorem State.fetch_kbdEnded (s : State) : s.fetch.kbdEnded = s.kbdEnded := s.afterRead_kbdEnded s.pc
@[simp] theorem State.fetch_conOut (s : State) : s.fetch.conOut = s.conOut := s.afterRead_conOut s.pc
@[simp] theorem State.fetch_inPrompt (s : State) : s.fetch.inPrompt = s.inPrompt := s.afterRead_inPrompt s.pc
@[simp] theorem State.fetch_consoleEof (s : State) : s.fetch.consoleEof = s.consoleEof := s.afterRead_consoleEof s.pc
@[simp] theorem State.fetch_pc (s : State) : s.fetch.pc = s.pc + 0x0001#16 := rfl
@[simp] theorem State.fetch_instr (s : State) : s.fetch.instr = s.memRead s.pc := rfl
@[simp] theorem State.fetch_mem (s : State) : s.fetch.mem = (s.afterRead s.pc).mem := rfl
@[simp] theorem State.reg_fetch (s : State) (r : Reg) : s.fetch.reg r = s.reg r := s.reg_afterRead s.pc r

/-- Away from the status register a fetch only latches the word and increments `pc`. -/
theorem State.fetch_of_ne (s : State) (h : s.pc ≠ kbsrAddr) :
    s.fetch = { s with instr := s.cell s.pc, pc := s.pc + 0x0001#16 } := by
  simp [State.fetch, s.afterRead_of_ne h, s.memRead_of_ne h]

/-! ### The string loop -/

/-- What the string loop keeps: a property that reads and writes of output keep holds after it. -/
theorem State.printString_induct (P : State → Prop) (hr : ∀ s a, P s → P (s.afterRead a))
    (hp : ∀ s bs, P s → P (s.consolePutAll bs)) (bytesOf : Word → List Byte) :
    ∀ (n : Nat) (a : Word) (s t : State), State.printString bytesOf n a s = some t → P s → P t
  | 0, _, _, _, h, _ => by cases h
  | n + 1, a, s, t, h, hs => by
    unfold State.printString at h
    split at h
    · cases h; exact hr s a hs
    · exact State.printString_induct P hr hp bytesOf n _ _ t h (hp _ _ (hr s a hs))

theorem State.printString_regs (bytesOf : Word → List Byte) (n : Nat) (a : Word) (s t : State)
    (h : State.printString bytesOf n a s = some t) : t.regs = s.regs :=
  State.printString_induct (fun u => u.regs = s.regs) (fun u b hu => by simpa using hu) (fun u bs hu => by simpa using hu)
    bytesOf n a s t h rfl

theorem State.printString_pc (bytesOf : Word → List Byte) (n : Nat) (a : Word) (s t : State)
    (h : State.printString bytesOf n a s = some t) : t.pc = s.pc :=
  State.printString_induct (fun u => u.pc = s.pc) (fun u b hu => by simpa using hu) (fun u bs hu => by simpa using hu)
    bytesOf n a s t h rfl

theorem State.printString_cond (bytesOf : Word → List Byte) (n : Nat) (a : Word) (s t : State)
    (h : State.printString bytesOf n a s = some t) : t.cond = s.cond :=
  State.printString_induct (fun u => u.cond = s.cond) (fun u b hu => by simpa using hu) (fun u bs hu => by simpa using hu)
    bytesOf n a s t h rfl

theorem State.printString_run (bytesOf : Word → List Byte) (n : Nat) (a : Word) (s t : State)
    (h : State.printString bytesOf n a s = some t) : t.run = s.run :=
  State.printString_induct (fun u => u.run = s.run) (fun u b hu => by simpa using hu) (fun u bs hu => by simpa using hu)
    bytesOf n a s t h rfl

theorem State.printString_faultCause (bytesOf : Word → List Byte) (n : Nat) (a : Word) (s t : State)
    (h : State.printString bytesOf n a s = some t) : t.faultCause = s.faultCause :=
  State.printString_induct (fun u => u.faultCause = s.faultCause) (fun u b hu => by simpa using hu) (fun u bs hu => by simpa using hu)
    bytesOf n a s t h rfl

theorem State.printString_faultInstr (bytesOf : Word → List Byte) (n : Nat) (a : Word) (s t : State)
    (h : State.printString bytesOf n a s = some t) : t.faultInstr = s.faultInstr :=
  State.printString_induct (fun u => u.faultInstr = s.faultInstr) (fun u b hu => by simpa using hu) (fun u bs hu => by simpa using hu)
    bytesOf n a s t h rfl

theorem State.printString_instr (bytesOf : Word → List Byte) (n : Nat) (a : Word) (s t : State)
    (h : State.printString bytesOf n a s = some t) : t.instr = s.instr :=
  State.printString_induct (fun u => u.instr = s.instr) (fun u b hu => by simpa using hu) (fun u bs hu => by simpa using hu)
    bytesOf n a s t h rfl

theorem State.printString_kbdEnded (bytesOf : Word → List Byte) (n : Nat) (a : Word) (s t : State)
    (h : State.printString bytesOf n a s = some t) : t.kbdEnded = s.kbdEnded :=
  State.printString_induct (fun u => u.kbdEnded = s.kbdEnded) (fun u b hu => by simpa using hu) (fun u bs hu => by simpa using hu)
    bytesOf n a s t h rfl

theorem State.printString_inPrompt (bytesOf : Word → List Byte) (n : Nat) (a : Word) (s t : State)
    (h : State.printString bytesOf n a s = some t) : t.inPrompt = s.inPrompt :=
  State.printString_induct (fun u => u.inPrompt = s.inPrompt) (fun u b hu => by simpa using hu) (fun u bs hu => by simpa using hu)
    bytesOf n a s t h rfl

theorem State.printString_consoleEof (bytesOf : Word → List Byte) (n : Nat) (a : Word) (s t : State)
    (h : State.printString bytesOf n a s = some t) : t.consoleEof = s.consoleEof :=
  State.printString_induct (fun u => u.consoleEof = s.consoleEof) (fun u b hu => by simpa using hu) (fun u bs hu => by simpa using hu)
    bytesOf n a s t h rfl

/-- The string loop keeps the canonical form of memory. -/
theorem State.printString_wf (bytesOf : Word → List Byte) (n : Nat) (a : Word) (s t : State)
    (h : State.printString bytesOf n a s = some t) (hs : Memory.wf s.mem) : Memory.wf t.mem :=
  State.printString_induct (fun u => Memory.wf u.mem) (fun u b hu => u.afterRead_wf b hu) (fun _ _ hu => hu)
    bytesOf n a s t h hs

/-- The string loop changes no cell but the two device cells. -/
theorem State.printString_cell (bytesOf : Word → List Byte) (n : Nat) (a : Word) (s t : State)
    (h : State.printString bytesOf n a s = some t) (b : Word) (hk : b ≠ kbsrAddr) (hd : b ≠ kbdrAddr) :
    t.cell b = s.cell b :=
  State.printString_induct (fun u => u.cell b = s.cell b) (fun u c hu => (u.cell_afterRead c b hk hd).trans hu)
    (fun _ _ hu => hu) bytesOf n a s t h rfl

/-- The string loop only appends to the output. -/
theorem State.printString_conOut (bytesOf : Word → List Byte) (n : Nat) (a : Word) (s t : State)
    (h : State.printString bytesOf n a s = some t) : ∃ out, t.conOut = s.conOut ++ out :=
  State.printString_induct (fun u => ∃ out, u.conOut = s.conOut ++ out) (fun u b hu => by simpa using hu)
    (fun u bs ⟨out, hu⟩ => ⟨out ++ bs.map .put, by simp [hu]⟩) bytesOf n a s t h ⟨[], by simp⟩

end Sys2Proof.Machine
end

