-- ==== Sys2Proof/Laws/Step.lean ====
section
/-! SUPPORT. What a step can do: the inversion of `step`, and the values of `flagOf`. -/

namespace Sys2Proof.Machine

/-- A step that has a successor was taken in RUNNING and is the meaning of the fetched word. -/
theorem step_next {s t : State} (h : step s = .next t) :
    s.run = .running ∧ exec (decode s.fetch.instr) s.fetch = .next t := by
  unfold step at h
  split at h
  · exact ⟨‹_›, h⟩
  · cases h
  · cases h

/-- In RUNNING a step is the meaning of the fetched word. -/
theorem step_of_running {s : State} (h : s.run = .running) : step s = exec (decode s.fetch.instr) s.fetch := by
  simp [step, h]

/-- The flag of a result is one of the three. -/
theorem flagOf_cases (v : Word) : flagOf v = flagN ∨ flagOf v = flagZ ∨ flagOf v = flagP := by
  unfold flagOf
  split_ifs <;> simp

end Sys2Proof.Machine
end

