-- ==== Sys2Proof/Laws/Exec.lean ====
section
/-! SUPPORT. What the meanings over shared operations can do, said once: the two blocking reads, the string routines, and
which instruction each fatal word decodes to. -/

namespace Sys2Proof.Machine

/-- The modular increment of `pc`, on numbers. -/
theorem word_add_one (a : Word) : a + 0x0001#16 = BitVec.ofNat 16 (a.toNat + 1) := by
  apply BitVec.eq_of_toNat_eq
  simp

/-- A sum with a sign-extended field, on integers. -/
theorem add_sext (a : Word) {n : Nat} (f : BitVec n) (hn : n ≤ 16) : a + sext f = BitVec.ofInt 16 (a.toNat + f.toInt) := by
  apply BitVec.eq_of_toInt_eq
  rw [BitVec.toInt_add, sext, BitVec.toInt_signExtend_of_le hn, BitVec.toInt_ofInt, BitVec.toInt_eq_toNat_bmod]
  simp [Int.bmod_add_bmod]

/-- GETC completes by writing `x[0]` and taking a prefix of the listed input, and by nothing else. -/
theorem execTrapGetc_next {s t : State} (h : execTrapGetc s = .next t) :
    ∃ w ks n, t = ({ s with kbdIn := ks, kbdTaken := n } : State).setReg trapReg w ∧ ∃ taken, s.kbdIn = taken ++ ks := by
  unfold execTrapGetc at h
  rcases s.consoleGet_cases with ⟨b, t', h1, h2⟩ | ⟨w, h1, -⟩ | ⟨h1, -⟩ <;> rw [h1] at h <;> cases h
  · rcases s.nextByte_cases with ⟨h3, -⟩ | ⟨b', h3, h4⟩ <;> rw [h3] at h2 <;> cases h2
    refine ⟨_, _, _, rfl, ?_⟩
    rcases h4 with h4 | ⟨h4, -⟩
    · exact ⟨[b], h4⟩
    · rw [h4]; exact ⟨[], rfl⟩
  · exact ⟨_, _, _, rfl, [], rfl⟩

/-- IN completes by writing `x[0]`, taking a prefix of the listed input and appending to the output, and by nothing
else. -/
theorem execTrapIn_next {s t : State} (h : execTrapIn s = .next t) :
    ∃ w ks n out, t = ({ s with kbdIn := ks, kbdTaken := n, conOut := s.conOut ++ out } : State).setReg trapReg w ∧
      ∃ taken, s.kbdIn = taken ++ ks := by
  simp only [execTrapIn] at h
  rcases State.consoleGet_cases (s.consolePutAll s.inPrompt).consoleFlush with
    ⟨b, t', h1, h2⟩ | ⟨w, h1, -⟩ | ⟨h1, -⟩ <;> rw [h1] at h <;> cases h
  · rcases State.nextByte_cases (s.consolePutAll s.inPrompt).consoleFlush with ⟨h3, -⟩ | ⟨b', h3, h4⟩ <;>
      rw [h3] at h2 <;> cases h2
    refine ⟨zext16 b, s.kbdIn.tail, s.kbdTaken + 1,
      s.inPrompt.map .put ++ [.flush, .put (lowByte (zext16 b)), .flush], ?_, ?_⟩
    · simp [State.consolePutAll, State.consolePut, State.consoleFlush]
    · have h5 : s.kbdIn = b :: s.kbdIn.tail ∨ (s.kbdIn = [] ∧ _) := h4
      rcases h5 with h5 | ⟨h5, -⟩
      · exact ⟨[b], h5⟩
      · rw [h5]; exact ⟨[], rfl⟩
  · refine ⟨w, s.kbdIn, s.kbdTaken, s.inPrompt.map .put ++ [.flush, .put (lowByte w), .flush], ?_, [], rfl⟩
    simp [State.consolePutAll, State.consolePut, State.consoleFlush]

/-- A string routine completes exactly when its loop does, with one flush. -/
theorem stringResult_next {o : Option State} {t : State} (h : stringResult o = .next t) :
    ∃ u, o = some u ∧ t = u.consoleFlush := by
  unfold stringResult at h
  split at h <;> cases h
  exact ⟨_, rfl, rfl⟩

/-- An end met in some number of reads is the end of the manual's loop. -/
theorem State.printString_printed (bytesOf : Word → List Byte) :
    ∀ (n : Nat) (a : Word) (s t : State), State.printString bytesOf n a s = some t → PrintedString bytesOf s a t
  | 0, _, _, _, h => by cases h
  | n + 1, a, s, t, h => by
    unfold State.printString at h
    split at h
    · cases h; exact .stop _ _ ‹_›
    · exact .more _ _ _ ‹_› (State.printString_printed bytesOf n _ _ _ h)

/-- The fatal kinds of word, by the instruction they decode to. -/
theorem causeOfWord_decode (w : Word) : causeOfWord w =
    (match decode w with
      | .res => some .reservedOpcode
      | .rti => some .unimplementedOpcode
      | .trap _ => some .undefinedTrapVector
      | _ => none) := by
  unfold causeOfWord
  split_ifs with h1 h2 h3
  · rw [decode, opcodeOf_eq w .res h1]
  · rw [decode, opcodeOf_eq w .rti h2]
  · obtain ⟨h3, h4⟩ := h3
    rw [decode, opcodeOf_eq w .trap h3]
    simp only [undefinedVector] at h4
    simp at h4
    simp only [decodeTrap, fieldVec8, ← BitVec.toNat_inj]
    simp
    split_ifs <;> first | rfl | omega
  · have hn : (opcodeOf w).number = w.extractLsb' 12 4 := number_opcodeMap _
    unfold decode
    cases ho : opcodeOf w <;> rw [ho] at hn <;> simp only
    case add => cases immFlag w <;> rfl
    case and => cases immFlag w <;> rfl
    case jsr => cases longFlag w <;> rfl
    case res => exact absurd hn.symm h1
    case rti => exact absurd hn.symm h2
    case trap =>
      have h4 : undefinedVector (w.extractLsb' 0 8) ≠ true := fun e => h3 ⟨hn.symm, e⟩
      simp only [undefinedVector] at h4
      simp at h4
      simp only [decodeTrap, fieldVec8, ← BitVec.toNat_inj]
      simp
      split_ifs <;> first | rfl | omega

end Sys2Proof.Machine
end

