-- ==== Sys2Proof/Laws/PerInstr.lean ====
section
/-! SUPPORT. The family EncodedOpcode: the top four bits of an encoded instruction are the number of its opcode
(30_encoding.md R50, R51), one lemma per constructor. -/

namespace Sys2Proof.Laws.EncodedOpcode

/-- The word of `i` carries the number of its opcode. -/
def Statement (i : Instr) : Prop := (encode i).extractLsb' 12 4 = i.opcode.number

theorem br (nzp : BitVec 3) (off : BitVec 9) : Statement (.br nzp off) := layoutOff9_top _ _ _

theorem addReg (dr sr1 sr2 : Reg) : Statement (.addReg dr sr1 sr2) := layoutRegs_top _ _ _ _

theorem addImm (dr sr1 : Reg) (imm : BitVec 5) : Statement (.addImm dr sr1 imm) := layoutRegs_top _ _ _ _

theorem ld (dr : Reg) (off : BitVec 9) : Statement (.ld dr off) := layoutOff9_top _ _ _

theorem st (sr : Reg) (off : BitVec 9) : Statement (.st sr off) := layoutOff9_top _ _ _

theorem jsr (off : BitVec 11) : Statement (.jsr off) := layoutJump_top _ _ _

theorem jsrr (base : Reg) : Statement (.jsrr base) := layoutRegs_top _ _ _ _

theorem andReg (dr sr1 sr2 : Reg) : Statement (.andReg dr sr1 sr2) := layoutRegs_top _ _ _ _

theorem andImm (dr sr1 : Reg) (imm : BitVec 5) : Statement (.andImm dr sr1 imm) := layoutRegs_top _ _ _ _

theorem ldr (dr base : Reg) (off : BitVec 6) : Statement (.ldr dr base off) := layoutRegs_top _ _ _ _

theorem str (sr base : Reg) (off : BitVec 6) : Statement (.str sr base off) := layoutRegs_top _ _ _ _

theorem rti : Statement (.rti) := layoutVec_top _ _

theorem notReg (dr sr : Reg) : Statement (.notReg dr sr) := layoutRegs_top _ _ _ _

theorem ldi (dr : Reg) (off : BitVec 9) : Statement (.ldi dr off) := layoutOff9_top _ _ _

theorem sti (sr : Reg) (off : BitVec 9) : Statement (.sti sr off) := layoutOff9_top _ _ _

theorem jmp (base : Reg) : Statement (.jmp base) := layoutRegs_top _ _ _ _

theorem res : Statement (.res) := layoutVec_top _ _

theorem lea (dr : Reg) (off : BitVec 9) : Statement (.lea dr off) := layoutOff9_top _ _ _

theorem trapGetc : Statement (.trapGetc) := layoutVec_top _ _

theorem trapOut : Statement (.trapOut) := layoutVec_top _ _

theorem trapPuts : Statement (.trapPuts) := layoutVec_top _ _

theorem trapIn : Statement (.trapIn) := layoutVec_top _ _

theorem trapPutsp : Statement (.trapPutsp) := layoutVec_top _ _

theorem trapHalt : Statement (.trapHalt) := layoutVec_top _ _

theorem trap (vec : BitVec 8) : Statement (.trap vec) := layoutVec_top _ _

end Sys2Proof.Laws.EncodedOpcode
end

