-- ==== Sys2Proof/Laws/Strings.lean ====
section
/-! SUPPORT. The string routines end exactly when the loop of the manual does (45_trap.md R123, R125): the marks that give
the free values, one poll of the loop, what a loop that has met no end says of the state, and why it then never does. -/

namespace Sys2Proof.Machine

/-! ### Marks given by their runs -/

theorem nextMark_ge (run : Nat → Option Nat) : ∀ (fuel start i m : Nat), nextMark run fuel start i = some m → i ≤ m
  | 0, _, _, _, h => by cases h
  | fuel + 1, start, i, m, h => by
    unfold nextMark at h
    split at h
    · cases h
    · split at h
      · cases h; assumption
      · exact nextMark_ge run fuel _ i m h

/-- From a number that is not marked, the next mark is the next mark of its successor. -/
theorem nextMark_succ (run : Nat → Option Nat) (i fuel : Nat) : ∀ start, i < fuel + 1 + start →
    nextMark run (fuel + 1) start i ≠ some i →
    nextMark run (fuel + 2) start (i + 1) = nextMark run (fuel + 1) start i := by
  induction fuel with
  | zero =>
    intro start hf hn
    cases hr : run start with
    | none => simp only [nextMark, hr]
    | some r =>
      have hi : i ≤ start + r := by omega
      simp only [nextMark, hr, if_pos hi] at hn ⊢
      rw [if_pos (show i + 1 ≤ start + r from Nat.lt_of_le_of_ne hi (fun e => hn (by rw [e])))]
  | succ fuel ih =>
    intro start hf hn
    rw [nextMark] at hn ⊢
    conv => rhs; rw [nextMark]
    cases hr : run start with
    | none => rfl
    | some r =>
      rw [hr] at hn
      dsimp only at hn ⊢
      by_cases hi : i ≤ start + r
      · rw [if_pos hi] at hn ⊢
        rw [if_pos (show i + 1 ≤ start + r from Nat.lt_of_le_of_ne hi (fun e => hn (by rw [e])))]
      · rw [if_neg hi] at hn ⊢
        rw [if_neg (show ¬ i + 1 ≤ start + r by omega)]
        exact ih (start + r + 1) (by omega) hn

theorem nextSilence_ge {i m : Nat} (h : nextSilence i = some m) : i ≤ m := nextMark_ge _ _ _ _ _ h

theorem nextZero_ge {i m : Nat} (h : nextZero i = some m) : i ≤ m := nextMark_ge _ _ _ _ _ h

theorem nextSilence_succ {i : Nat} (h : freeAnswer i = true) : nextSilence (i + 1) = nextSilence i :=
  nextMark_succ _ i i 0 (by omega) (of_decide_eq_true h)

theorem freeByte_eq_zero (i : Nat) : freeByte i = 0x00#8 ↔ nextZero i = some i := by
  unfold freeByte
  split
  · simp [*]
  · rename_i h
    have := (Config.charCode i).isLt
    simp only [h, iff_false, ← BitVec.toNat_inj]
    simp
    omega

theorem nextZero_succ {i : Nat} (h : freeByte i ≠ 0x00#8) : nextZero (i + 1) = nextZero i :=
  nextMark_succ _ i i 0 (by omega) (fun e => h ((freeByte_eq_zero i).mpr e))

/-- The runs shut out no environment: every sequence of marks is given by some runs. -/
theorem exists_run_of_marks (marked : Nat → Prop) : ∃ run, ∀ i, nextMark run (i + 1) 0 i = some i ↔ marked i := by
  classical
  refine ⟨fun start => if h : ∃ k, marked (start + k) then some (Nat.find h) else none, fun i => ?_⟩
  have key : ∀ fuel start, i < fuel + 1 + start → start ≤ i → (nextMark
      (fun start => if h : ∃ k, marked (start + k) then some (Nat.find h) else none) (fuel + 1) start i = some i ↔
      marked i) := by
    intro fuel
    induction fuel with
    | zero =>
      intro start h1 h2
      obtain rfl : start = i := by omega
      rw [nextMark]
      by_cases h : ∃ k, marked (start + k)
      · simp only [dif_pos h, Nat.le_add_right, if_true, Option.some.injEq, Nat.add_eq_left, Nat.find_eq_zero]
        simp
      · simp only [dif_neg h]
        simp
        exact fun g => h ⟨0, g⟩
    | succ fuel ih =>
      intro start h1 h2
      rw [nextMark]
      by_cases h : ∃ k, marked (start + k)
      · simp only [dif_pos h]
        by_cases hi : i ≤ start + Nat.find h
        · rw [if_pos hi]
          constructor
          · intro e
            have := Nat.find_spec h
            rwa [show start + Nat.find h = i by simpa using e] at this
          · intro e
            have := Nat.find_min' h (m := i - start) (by rwa [show start + (i - start) = i by omega])
            rw [show start + Nat.find h = i by omega]
        · rw [if_neg hi]
          exact ih _ (by omega) (by omega)
      · simp only [dif_neg h]
        simp
        exact fun g => h ⟨i - start, by rwa [show start + (i - start) = i by omega]⟩
  exact key i 0 (by omega) (by omega)

/-! ### One poll of the loop -/

/-- Everything a read of the status register that does not return zero has done. -/
theorem State.afterRead_status_of_ne_zero (s : State) (h : s.memRead kbsrAddr ≠ 0x0000#16) :
    ∃ b, s.afterRead kbsrAddr = (({ s.polled with kbdIn := s.kbdIn.tail, kbdTaken := s.kbdTaken + 1 } : State).setCell
        kbsrAddr 0x8000#16).setCell kbdrAddr (zext16 b) ∧
      (s.kbdIn = b :: s.kbdIn.tail ∨ (s.kbdIn = [] ∧ s.kbdEnded = false ∧ b = freeByte s.kbdTaken)) ∧
      (s.pollAnswers = true :: s.pollAnswers.tail ∨ (s.pollAnswers = [] ∧ freeAnswer s.pollsDone = true)) := by
  have e : s.afterRead kbsrAddr = s.pollStatus := if_pos rfl
  rw [s.memRead_status] at h
  rcases s.pollStatus_cases with ⟨h1, -⟩ | ⟨b, -, h2, h3, h4⟩
  · rw [h1] at h; exact absurd rfl h
  · refine ⟨b, e.trans h4, h3, ?_⟩
    unfold State.pollNow at h2
    rcases hp : s.pollAnswers with _ | ⟨x, r⟩
    · rw [hp] at h2; exact .inr ⟨rfl, h2⟩
    · rw [hp] at h2; exact .inl (by rw [show x = true from h2]; rfl)

theorem zext16_eq_zero (b : Byte) : zext16 b = 0x0000#16 ↔ b = 0x00#8 := by
  simp only [← BitVec.toNat_inj, zext16, BitVec.toNat_setWidth]
  have := b.isLt
  simp
  omega

/-! ### More reads only go on -/

theorem State.printString_mono (f : Word → List Byte) : ∀ (n m : Nat) (a : Word) (s t : State), n ≤ m →
    State.printString f n a s = some t → State.printString f m a s = some t
  | 0, _, _, _, _, _, h => by cases h
  | n + 1, 0, _, _, _, hm, _ => by omega
  | n + 1, m + 1, a, s, t, hm, h => by
    unfold State.printString at h ⊢
    split at h
    · rw [if_pos ‹_›]; exact h
    · rw [if_neg ‹_›]; exact State.printString_mono f n m _ _ t (by omega) h

/-- What the loop of the manual leaves, some number of reads reaches. -/
theorem State.printString_of_printed {f : Word → List Byte} {s t : State} {a : Word} (h : PrintedString f s a t) :
    ∃ n, State.printString f n a s = some t := by
  induction h with
  | stop s a hz => exact ⟨1, by unfold State.printString; rw [if_pos hz]⟩
  | more s a t hz _ ih =>
    obtain ⟨n, hn⟩ := ih
    exact ⟨n + 1, by unfold State.printString; rw [if_neg hz]; exact hn⟩

/-! ### What a loop that has met no end says of the state -/

/-- How far `a` is below the status register, modulo 65536. -/
def toStatus (a : Word) : Nat := (kbsrAddr - a).toNat

theorem toStatus_succ (a : Word) (h : a ≠ kbsrAddr) : toStatus (a + 0x0001#16) + 1 = toStatus a := by
  have : a.toNat ≠ kbsrAddr.toNat := fun e => h (BitVec.eq_of_toNat_eq e)
  simp only [kbsrAddr] at this
  unfold toStatus kbsrAddr
  simp at this ⊢
  omega

/-- Every poll from here on finds a byte, and none of the bytes is 0x00. -/
def State.Endless (s : State) : Prop :=
  s.kbdEnded = false ∧ false ∉ s.pollAnswers ∧ 0x00#8 ∉ s.kbdIn ∧
    nextSilence (s.pollsDone + s.pollAnswers.length) = none ∧ nextZero (s.kbdTaken + s.kbdIn.length) = none

/-- How many polls the environment can answer with a byte other than 0x00 before it shows that it always will. -/
def State.passes (s : State) : Nat :=
  s.kbdIn.length + s.pollAnswers.length +
    (nextSilence (s.pollsDone + s.pollAnswers.length)).elim 0 (fun m => m + 1 - s.pollsDone) +
    (nextZero (s.kbdTaken + s.kbdIn.length)).elim 0 (fun m => m + 1 - s.kbdTaken)

/-- A poll that finds a byte other than 0x00 uses up one pass, if any is left; and what is endless after it was endless
before it. -/
theorem State.poll_uses_a_pass (s : State) (b : Byte)
    (hb : s.kbdIn = b :: s.kbdIn.tail ∨ (s.kbdIn = [] ∧ s.kbdEnded = false ∧ b = freeByte s.kbdTaken))
    (hp : s.pollAnswers = true :: s.pollAnswers.tail ∨ (s.pollAnswers = [] ∧ freeAnswer s.pollsDone = true))
    (hz : b ≠ 0x00#8) (u : State) (h1 : u.kbdIn = s.kbdIn.tail) (h2 : u.kbdTaken = s.kbdTaken + 1)
    (h3 : u.pollAnswers = s.pollAnswers.tail) (h4 : u.pollsDone = s.pollsDone + 1) (h5 : u.kbdEnded = s.kbdEnded) :
    ((s.passes = 0 ∧ s.Endless) ∨ u.passes < s.passes) ∧ (u.Endless ↔ s.Endless) := by
  have hs : nextSilence (u.pollsDone + u.pollAnswers.length) = nextSilence (s.pollsDone + s.pollAnswers.length) := by
    rw [h3, h4]
    rcases hp with hp | ⟨hp, hf⟩
    · rw [hp]; simp only [List.tail_cons, List.length_cons]; congr 1; omega
    · rw [hp]; exact nextSilence_succ hf
  have hzr : nextZero (u.kbdTaken + u.kbdIn.length) = nextZero (s.kbdTaken + s.kbdIn.length) := by
    rw [h1, h2]
    rcases hb with hb | ⟨hb, -, hf⟩
    · rw [hb]; simp only [List.tail_cons, List.length_cons]; congr 1; omega
    · rw [hb]; exact nextZero_succ (hf ▸ hz)
  refine ⟨?_, ?_⟩
  · have hK : u.kbdIn.length = s.kbdIn.length - 1 := by rw [h1, List.length_tail]
    have hP : u.pollAnswers.length = s.pollAnswers.length - 1 := by rw [h3, List.length_tail]
    unfold State.passes
    rw [hs, hzr, hK, hP, h2, h4]
    have g1 : ∀ m, nextSilence (s.pollsDone + s.pollAnswers.length) = some m → s.pollsDone ≤ m :=
      fun m h => by have := nextSilence_ge h; omega
    have g2 : ∀ m, nextZero (s.kbdTaken + s.kbdIn.length) = some m → s.kbdTaken ≤ m :=
      fun m h => by have := nextZero_ge h; omega
    rcases hS : nextSilence (s.pollsDone + s.pollAnswers.length) with _ | m <;>
      rcases hZ : nextZero (s.kbdTaken + s.kbdIn.length) with _ | z <;>
      simp only [Option.elim]
    · by_cases h0 : s.kbdIn.length + s.pollAnswers.length = 0
      · left
        have e1 : s.kbdIn = [] := List.eq_nil_of_length_eq_zero (by omega)
        have e2 : s.pollAnswers = [] := List.eq_nil_of_length_eq_zero (by omega)
        refine ⟨by omega, ?_, by simp [e2], by simp [e1], hS, hZ⟩
        rcases hb with hb | ⟨-, hb, -⟩
        · rw [e1] at hb; cases hb
        · exact hb
      · right; omega
    · right; have := g2 _ hZ; omega
    · right; have := g1 _ hS; omega
    · right; have := g1 _ hS; have := g2 _ hZ; omega
  · unfold State.Endless
    rw [hs, hzr, h1, h3, h5]
    have e1 : (0x00#8 ∉ s.kbdIn.tail ↔ 0x00#8 ∉ s.kbdIn) := by
      rcases hb with hb | ⟨hb, -⟩
      · conv => rhs; rw [hb]
        simp [Ne.symm hz]
      · rw [hb]; rfl
    have e2 : (false ∉ s.pollAnswers.tail ↔ false ∉ s.pollAnswers) := by
      rcases hp with hp | ⟨hp, -⟩
      · conv => rhs; rw [hp]
        simp
      · rw [hp]; rfl
    rw [e1, e2]

/-- A zero byte in the data register ends a string that has just passed the status register. -/
theorem State.printString_zero_ahead (f : Word → List Byte) (n : Nat) (s : State) (h : s.cell kbdrAddr = 0x0000#16) :
    State.printString f (n + 2) (kbsrAddr + 0x0001#16) s ≠ none := by
  have h1 : kbsrAddr + 0x0001#16 ≠ kbsrAddr := by decide
  have h2 : kbsrAddr + 0x0001#16 + 0x0001#16 = kbdrAddr := by decide
  have h3 : kbdrAddr ≠ kbsrAddr := by decide
  unfold State.printString
  rw [s.memRead_of_ne h1, s.afterRead_of_ne h1]
  split
  · simp
  · rw [h2]
    unfold State.printString
    rw [State.memRead_of_ne _ h3, State.cell_consolePutAll, if_pos h]
    simp

/-- A loop that has met no end in enough reads shows that every further poll finds a byte other than 0x00. -/
theorem State.endless_of_printString_none (f : Word → List Byte) (n : Nat) : ∀ (a : Word) (s : State),
    State.printString f n a s = none → toStatus a + 3 + 65536 * s.passes ≤ n → s.Endless := by
  induction n with
  | zero => intro a s _ hn; omega
  | succ n ih =>
    intro a s h hn
    unfold State.printString at h
    split at h
    · cases h
    rename_i hz
    by_cases ha : a = kbsrAddr
    · subst ha
      obtain ⟨b, he, hb, hp⟩ := s.afterRead_status_of_ne_zero hz
      have h0 : toStatus kbsrAddr = 0 := by decide
      have h1 : toStatus (kbsrAddr + 0x0001#16) = 65535 := by decide
      rw [h0] at hn
      by_cases hbz : b = 0x00#8
      · exfalso
        obtain ⟨n, rfl⟩ : ∃ k, n = k + 2 := ⟨n - 2, by omega⟩
        refine State.printString_zero_ahead f n _ ?_ h
        rw [State.cell_consolePutAll, he, State.cell_setCell_same, zext16_eq_zero]
        exact hbz
      · obtain ⟨hpass, hend⟩ := s.poll_uses_a_pass b hb hp hbz
          ((s.afterRead kbsrAddr).consolePutAll (f (s.memRead kbsrAddr)))
          (by rw [he]; rfl) (by rw [he]; rfl) (by rw [he]; rfl) (by rw [he]; rfl) (by rw [he]; rfl)
        rcases hpass with ⟨-, hs⟩ | hlt
        · exact hs
        · exact hend.mp (ih _ _ h (by omega))
    · rw [s.afterRead_of_ne ha] at h
      have := toStatus_succ a ha
      exact ih _ (s.consolePutAll _) h (by
        show toStatus (a + 0x0001#16) + 3 + 65536 * s.passes ≤ n
        omega)

/-- A loop that has met no end has read no zero cell. -/
theorem State.cell_ne_zero_of_printString_none (f : Word → List Byte) : ∀ (n : Nat) (a : Word) (s : State),
    State.printString f n a s = none → ∀ k, k < n → a + BitVec.ofNat 16 k ≠ kbsrAddr → a + BitVec.ofNat 16 k ≠ kbdrAddr →
    s.cell (a + BitVec.ofNat 16 k) ≠ 0x0000#16
  | 0, _, _, _, _, hk, _, _ => by omega
  | n + 1, a, s, h, k, hk, h1, h2 => by
    unfold State.printString at h
    split at h
    · cases h
    rename_i hz
    obtain _ | k := k
    · have e : a + BitVec.ofNat 16 0 = a := by simp
      rw [e] at h1 ⊢
      rwa [s.memRead_of_ne h1] at hz
    · have e : a + BitVec.ofNat 16 (k + 1) = a + 0x0001#16 + BitVec.ofNat 16 k := by
        apply BitVec.eq_of_toNat_eq
        simp
        omega
      rw [e] at h1 h2 ⊢
      have := State.cell_ne_zero_of_printString_none f n _ _ h k (by omega) h1 h2
      rwa [State.cell_consolePutAll, s.cell_afterRead _ _ h1 h2] at this

/-- And the data register, where the loop reads it before it polls. -/
theorem State.data_ne_zero_of_printString_none (f : Word → List Byte) (n : Nat) (a : Word) (s : State)
    (h : State.printString f (n + 2) a s = none) (ha : a = kbsrAddr + 0x0001#16 ∨ a = kbdrAddr) :
    s.cell kbdrAddr ≠ 0x0000#16 := by
  rcases ha with rfl | rfl
  · exact fun e => State.printString_zero_ahead f n s e h
  · intro e
    unfold State.printString at h
    rw [s.memRead_of_ne (by decide), if_pos e] at h
    cases h

/-! ### Then it never ends -/

/-- Where every poll finds a byte other than 0x00 and no other cell is zero, the loop never ends. -/
theorem State.printString_none_of_endless (f : Word → List Byte) (n : Nat) : ∀ (a : Word) (s : State), s.Endless →
    (∀ b, b ≠ kbsrAddr → b ≠ kbdrAddr → s.cell b ≠ 0x0000#16) →
    (a = kbsrAddr + 0x0001#16 ∨ a = kbdrAddr → s.cell kbdrAddr ≠ 0x0000#16) → State.printString f n a s = none := by
  have hne : kbsrAddr ≠ kbdrAddr := by decide
  induction n with
  | zero => intro a s _ _ _; rfl
  | succ n ih =>
    intro a s hs hc hd
    unfold State.printString
    by_cases ha : a = kbsrAddr
    · subst ha
      have hz : s.memRead kbsrAddr ≠ 0x0000#16 := by
        obtain ⟨h1, h2, -, h4, -⟩ := hs
        have hp : s.pollNow = true := by
          unfold State.pollNow
          rcases hp : s.pollAnswers with _ | ⟨x, r⟩
          · rw [hp] at h4
            have h4' : nextSilence s.pollsDone = none := h4
            simp [freeAnswer, h4']
          · rw [hp] at h2
            cases x
            · simp at h2
            · rfl
        have hk : ¬ (s.kbdIn = [] ∧ s.kbdEnded = true) := by simp [h1]
        simp only [s.memRead_status, s.consolePoll_fst, hp, hk]
        simp
      obtain ⟨b, he, hb, hp⟩ := s.afterRead_status_of_ne_zero hz
      have hbz : b ≠ 0x00#8 := by
        obtain ⟨-, -, h3, -, h5⟩ := hs
        rcases hb with hb | ⟨hb, -, rfl⟩
        · rintro rfl; rw [hb] at h3; simp at h3
        · rw [hb] at h5
          have h5' : nextZero s.kbdTaken = none := h5
          intro e
          rw [freeByte_eq_zero, h5'] at e
          cases e
      rw [if_neg hz]
      refine ih _ _ ?_ (fun c h1 h2 => ?_) (fun _ => ?_)
      · exact (s.poll_uses_a_pass b hb hp hbz _ (by rw [he]; rfl) (by rw [he]; rfl) (by rw [he]; rfl) (by rw [he]; rfl)
          (by rw [he]; rfl)).2.mpr hs
      · rw [State.cell_consolePutAll, s.cell_afterRead _ _ h1 h2]; exact hc c h1 h2
      · rw [State.cell_consolePutAll, he, State.cell_setCell_same, Ne, zext16_eq_zero]; exact hbz
    · have hz : s.memRead a ≠ 0x0000#16 := by
        rw [s.memRead_of_ne ha]
        by_cases hk : a = kbdrAddr
        · rw [hk]; exact hd (.inr hk)
        · exact hc a ha hk
      rw [if_neg hz, s.afterRead_of_ne ha]
      refine ih _ (s.consolePutAll _) hs hc (fun h => hd ?_)
      rcases h with h | h
      · exact absurd (by simpa using h) ha
      · left
        have : kbdrAddr = kbsrAddr + 0x0001#16 + 0x0001#16 := by decide
        rw [this] at h
        simpa using h

theorem State.passes_le (s : State) (a : Word) : toStatus a + 3 + 65536 * s.passes ≤ s.allReads := by
  have h1 : toStatus a < 65536 := (kbsrAddr - a).isLt
  unfold State.allReads State.listedReads State.passes
  rcases nextSilence (s.pollsDone + s.pollAnswers.length) with _ | m <;>
    rcases nextZero (s.kbdTaken + s.kbdIn.length) with _ | z <;> simp only [Option.elim] <;> omega

/-- What `allReads` reads do not end, no number of reads ends. -/
theorem State.printString_allReads (f : Word → List Byte) (a : Word) (s : State)
    (h : State.printString f s.allReads a s = none) : ∀ n, State.printString f n a s = none := by
  intro n
  obtain ⟨m, hm⟩ : ∃ m, s.allReads = m + 65536 := ⟨s.allReads - 65536, by unfold State.allReads State.listedReads; omega⟩
  refine State.printString_none_of_endless f n a s (State.endless_of_printString_none f _ a s h (s.passes_le a))
    (fun b h1 h2 => ?_) (fun ha => ?_)
  · have e : a + BitVec.ofNat 16 (b - a).toNat = b := by
      rw [BitVec.ofNat_toNat, BitVec.setWidth_eq, BitVec.add_comm, BitVec.sub_add_cancel]
    have := State.cell_ne_zero_of_printString_none f _ a s h (b - a).toNat (by have := (b - a).isLt; omega)
    rw [e] at this
    exact this h1 h2
  · refine State.data_ne_zero_of_printString_none f (m + 65534) a s ?_ ha
    rw [hm] at h
    exact h

/-! ### The routine's search and the loop of the manual -/

theorem State.stringEnd_some {f : Word → List Byte} {a : Word} {s t : State} (h : State.stringEnd f a s = some t) :
    ∃ n, State.printString f n a s = some t := by
  unfold State.stringEnd at h
  split at h
  · cases h; exact ⟨_, ‹_›⟩
  · exact ⟨_, h⟩

/-- The search answers where the loop of the manual leaves, and does not answer exactly where that loop never ends. -/
theorem State.stringEnd_iff (f : Word → List Byte) (a : Word) (s t : State) :
    State.stringEnd f a s = some t ↔ PrintedString f s a t := by
  constructor
  · intro h
    obtain ⟨n, hn⟩ := State.stringEnd_some h
    exact State.printString_printed f n a s t hn
  · intro h
    obtain ⟨n, hn⟩ := State.printString_of_printed h
    cases he : State.stringEnd f a s with
    | some u =>
      obtain ⟨m, hm⟩ := State.stringEnd_some he
      have h1 := State.printString_mono f n (max n m) a s t (le_max_left _ _) hn
      have h2 := State.printString_mono f m (max n m) a s u (le_max_right _ _) hm
      rw [← h2, h1]
    | none =>
      unfold State.stringEnd at he
      split at he
      · cases he
      · rw [State.printString_allReads f a s he n] at hn
        cases hn

/-- No answer: the environment never falls silent and never delivers 0x00. -/
theorem State.endless_of_stringEnd_none {f : Word → List Byte} {a : Word} {s : State}
    (h : State.stringEnd f a s = none) : s.Endless := by
  unfold State.stringEnd at h
  split at h
  · cases h
  · exact State.endless_of_printString_none f _ a s h (s.passes_le a)

/-- A string routine completes exactly where the loop of the manual leaves, with one flush. -/
theorem stringResult_next_iff (f : Word → List Byte) (a : Word) (s t : State) :
    stringResult (State.stringEnd f a s) = .next t ↔ ∃ u, PrintedString f s a u ∧ t = u.consoleFlush := by
  constructor
  · intro h
    obtain ⟨u, hu, rfl⟩ := stringResult_next h
    exact ⟨u, (State.stringEnd_iff f a s u).mp hu, rfl⟩
  · rintro ⟨u, hu, rfl⟩
    rw [(State.stringEnd_iff f a s u).mpr hu]
    rfl

/-- A string routine that completes has reached its end in some number of reads, so that what every read and every
output keeps (`State.printString_induct`) holds of it. -/
theorem stringResult_reads {f : Word → List Byte} {a : Word} {s t : State}
    (h : stringResult (State.stringEnd f a s) = .next t) :
    ∃ n u, State.printString f n a s = some u ∧ t = u.consoleFlush := by
  obtain ⟨u, hu, rfl⟩ := stringResult_next h
  obtain ⟨n, hn⟩ := State.stringEnd_some hu
  exact ⟨n, u, hn, rfl⟩

/-- A string routine stops in one way only, and then the loop never ends and the environment never ends it. -/
theorem stringResult_stop {f : Word → List Byte} {a : Word} {s : State} {g : Fault}
    (h : stringResult (State.stringEnd f a s) = .fault g) :
    g = .stringNeverEnds ∧ (∀ u, ¬ PrintedString f s a u) ∧ s.Endless := by
  cases he : State.stringEnd f a s with
  | some u => rw [he] at h; cases h
  | none =>
    rw [he] at h
    cases h
    refine ⟨rfl, fun u hu => ?_, State.endless_of_stringEnd_none he⟩
    rw [(State.stringEnd_iff f a s u).mpr hu] at he
    cases he

/-- No string routine is refused. -/
theorem stringResult_not_refused (o : Option State) (r : Refusal) : stringResult o ≠ .refused r := by
  cases o <;> exact fun h => by cases h

end Sys2Proof.Machine
end

