-- ==== Sys2Proof/Tests/Slice0.lean ====
section
/-! SUPPORT. The model's own tests. The expected values are those of spec/95_test_vectors.md (the section is named with
each group), and a witness is given for every statement that has hypotheses. -/

namespace Sys2Proof.Tests

open Sys2Proof.Machine

/-! ### Helpers -/

/-- The reset state with `pc` at `a` and the word `w` there. -/
def at' (a w : Word) : State := ({ State.reset with pc := a } : State).setCell a w

/-- The console input: the bytes, and the answers of the next polls. -/
def typing (bytes : List Byte) (polls : List Bool) (s : State) : State := { s with kbdIn := bytes, pollAnswers := polls }

/-- COND as given. -/
def withCond (c : BitVec 3) (s : State) : State := { s with cond := c }

/-- The result is a next state with the property. -/
def goes (r : Result) (p : State → Bool) : Bool :=
  match r with
  | .next t => p t
  | .fault _ => false
  | .refused _ => false

theorem goes_next {r : Result} (h : goes r (fun _ => true) = true) : ∃ t, r = .next t := by
  cases r with
  | next t => exact ⟨t, rfl⟩
  | fault f => cases h
  | refused f => cases h

/-- The result is the fault. -/
def stops (r : Result) (f : Fault) : Bool :=
  match r with
  | .next _ => false
  | .fault g => decide (g = f)
  | .refused _ => false

/-- Register, `pc` and COND after a step. -/
def gives (s : State) (r : Reg) (v p : Word) (c : BitVec 3) : Bool :=
  goes (step s) (fun t => decide (t.reg r = v ∧ t.pc = p ∧ t.cond = c ∧ t.mem = s.mem ∧ t.run = .running))

/-- Memory, `pc` and COND after a step of a store. -/
def puts (s : State) (a v p : Word) (c : BitVec 3) : Bool :=
  goes (step s) (fun t => decide (t.mem = Memory.set s.mem a.toNat v ∧ t.regs = s.regs ∧ t.pc = p ∧ t.cond = c))

/-- The output after a step of a trap at 0x3000; registers and memory stay. -/
def emits (s : State) (out : List ConEvent) : Bool :=
  goes (step s) (fun t => decide (t.conOut = out ∧ t.regs = s.regs ∧ t.mem = s.mem ∧ t.cond = s.cond ∧ t.pc = 0x3001#16))

/-- The fault record after a step at 0x3000; registers, COND and memory stay. -/
def faults (s : State) (c : FaultCause) (w : Word) : Bool :=
  goes (step s) (fun t => decide (t.run = .faulted ∧ t.faultCause = some c ∧ t.faultInstr = some w ∧
    t.pc = 0x3001#16 ∧ t.regs = s.regs ∧ t.cond = s.cond ∧ t.mem = s.mem))

/-! ### WellFormed: the one check, met and refused -/

theorem test_wf_refuses_the_vectors_with_a_routine :
    (Instr.trap 0x20#8).wf = false ∧ (Instr.trap 0x21#8).wf = false ∧ (Instr.trap 0x22#8).wf = false ∧
    (Instr.trap 0x23#8).wf = false ∧ (Instr.trap 0x24#8).wf = false ∧ (Instr.trap 0x25#8).wf = false := by decide

theorem test_wf_accepts_the_vectors_without_a_routine :
    (Instr.trap 0x00#8).wf = true ∧ (Instr.trap 0x1F#8).wf = true ∧ (Instr.trap 0x26#8).wf = true ∧
    (Instr.trap 0xFF#8).wf = true := by decide

/-! ### Decode (95_test_vectors.md section 9): one word for each constructor -/

theorem test_decode_br : decode 0x0A05#16 = .br 0b101#3 0x005#9 := by decide
theorem test_decode_add_reg : decode 0x1283#16 = .addReg 1#3 2#3 3#3 := by decide
theorem test_decode_add_imm : decode 0x12BF#16 = .addImm 1#3 2#3 0b11111#5 := by decide
theorem test_decode_ld : decode 0x2FFF#16 = .ld 7#3 0x1FF#9 := by decide
theorem test_decode_st : decode 0x3E00#16 = .st 7#3 0x000#9 := by decide
theorem test_decode_jsr : decode 0x4C00#16 = .jsr 0x400#11 := by decide
theorem test_decode_jsrr : decode 0x47C0#16 = .jsrr 7#3 := by decide
theorem test_decode_and_reg : decode 0x5642#16 = .andReg 3#3 1#3 2#3 := by decide
theorem test_decode_and_imm : decode 0x5B7F#16 = .andImm 5#3 5#3 0b11111#5 := by decide
theorem test_decode_ldr : decode 0x6FFF#16 = .ldr 7#3 7#3 0b111111#6 := by decide
theorem test_decode_str : decode 0x7881#16 = .str 4#3 2#3 1#6 := by decide
theorem test_decode_rti : decode 0x8000#16 = .rti ∧ decode 0x8FFF#16 = .rti := by decide
theorem test_decode_not : decode 0x98FF#16 = .notReg 4#3 3#3 ∧ decode 0x9040#16 = .notReg 0#3 1#3 := by decide
theorem test_decode_ldi : decode 0xAA07#16 = .ldi 5#3 7#9 := by decide
theorem test_decode_sti : decode 0xBFFF#16 = .sti 7#3 0x1FF#9 := by decide
theorem test_decode_jmp : decode 0xC1C0#16 = .jmp 7#3 ∧ decode 0xCEBF#16 = .jmp 2#3 := by decide
theorem test_decode_res : decode 0xD000#16 = .res ∧ decode 0xDFFF#16 = .res := by decide
theorem test_decode_lea : decode 0xE409#16 = .lea 2#3 9#9 := by decide
theorem test_decode_getc : decode 0xF020#16 = .trapGetc ∧ decode 0xF120#16 = .trapGetc := by decide
theorem test_decode_out : decode 0xF021#16 = .trapOut ∧ decode 0xFF21#16 = .trapOut := by decide
theorem test_decode_puts : decode 0xF022#16 = .trapPuts := by decide
theorem test_decode_in : decode 0xF023#16 = .trapIn := by decide
theorem test_decode_putsp : decode 0xF024#16 = .trapPutsp := by decide
theorem test_decode_halt : decode 0xF025#16 = .trapHalt ∧ decode 0xFF25#16 = .trapHalt := by decide
theorem test_decode_trap : decode 0xF01F#16 = .trap 0x1F#8 ∧ decode 0xF026#16 = .trap 0x26#8 := by decide

/-- The conventional assembler's words (30_encoding.md R60 closing note, R67). -/
theorem test_encode : encode (.notReg 4#3 3#3) = 0x98FF#16 ∧ encode (.jmp 7#3) = 0xC1C0#16 ∧
    encode .trapHalt = 0xF025#16 ∧ encode (.br 0#3 0#9) = 0x0000#16 ∧ encode (.addImm 2#3 1#3 0x1D#5) = 0x147D#16 := by
  decide

/-! ### Arithmetic and logic (section 2) -/

theorem test_add_reg_overflow :
    gives (((at' 0x3000#16 0x1042#16).setReg 1#3 0x7FFF#16).setReg 2#3 0x0001#16) 0#3 0x8000#16 0x3001#16 0b100#3 = true := by
  decide

theorem test_add_reg_doubling :
    gives ((at' 0x3000#16 0x1241#16).setReg 1#3 0x4000#16) 1#3 0x8000#16 0x3001#16 0b100#3 = true := by decide

theorem test_add_imm_source_example :
    gives ((at' 0x3000#16 0x147D#16).setReg 1#3 0x0005#16) 2#3 0x0002#16 0x3001#16 0b001#3 = true := by decide

theorem test_add_imm_smallest :
    gives ((at' 0x3000#16 0x1030#16).setReg 0#3 0x8010#16) 0#3 0x8000#16 0x3001#16 0b100#3 = true := by decide

theorem test_and_reg :
    gives (((at' 0x3000#16 0x5642#16).setReg 1#3 0xF0F0#16).setReg 2#3 0x8421#16) 3#3 0x8020#16 0x3001#16 0b100#3 = true := by
  decide

theorem test_and_imm_sign_extended :
    gives ((at' 0x3000#16 0x5070#16).setReg 1#3 0xABCD#16) 0#3 0xABC0#16 0x3001#16 0b100#3 = true := by decide

theorem test_not : gives ((at' 0x3000#16 0x98FF#16).setReg 3#3 0x1234#16) 4#3 0xEDCB#16 0x3001#16 0b100#3 = true := by decide

theorem test_not_to_zero :
    gives ((at' 0x3000#16 0x903F#16).setReg 0#3 0xFFFF#16) 0#3 0x0000#16 0x3001#16 0b010#3 = true := by decide

/-! ### Control transfer (section 3) -/

theorem test_br_taken_wraps :
    gives (withCond 0b100#3 (at' 0xFFFF#16 0x0900#16)) 7#3 0x0000#16 0xFF00#16 0b100#3 = true := by decide

theorem test_br_not_taken_at_reset : gives (at' 0x3000#16 0x0E01#16) 7#3 0x0000#16 0x3001#16 0b000#3 = true := by decide

theorem test_jmp : gives ((at' 0x3000#16 0xCEBF#16).setReg 2#3 0x1234#16) 7#3 0x0000#16 0x1234#16 0b000#3 = true := by decide

theorem test_jsr_width_eleven : gives (at' 0x3000#16 0x4C00#16) 7#3 0x3001#16 0x2C01#16 0b000#3 = true := by decide

theorem test_jsr_largest : gives (at' 0x3000#16 0x4BFF#16) 7#3 0x3001#16 0x3400#16 0b000#3 = true := by decide

theorem test_jsrr : gives ((at' 0x3000#16 0x4080#16).setReg 2#3 0x5000#16) 7#3 0x3001#16 0x5000#16 0b000#3 = true := by decide

theorem test_jsrr_r7 : gives ((at' 0x3000#16 0x41C0#16).setReg 7#3 0x5000#16) 7#3 0x3001#16 0x3001#16 0b000#3 = true := by
  decide

/-! ### Loads and LEA (section 4) -/

theorem test_ld : gives ((at' 0x3007#16 0x2C02#16).setCell 0x300A#16 0x1234#16) 6#3 0x1234#16 0x3008#16 0b001#3 = true := by
  decide

theorem test_ldi : gives (((at' 0x3004#16 0xAA07#16).setCell 0x300C#16 0x4000#16).setCell 0x4000#16 0xEDCC#16)
    5#3 0xEDCC#16 0x3005#16 0b100#3 = true := by decide

theorem test_ldr_wraps_above : gives (((at' 0x3000#16 0x609F#16).setReg 2#3 0xFFF0#16).setCell 0x000F#16 0x0042#16)
    0#3 0x0042#16 0x3001#16 0b001#3 = true := by decide

theorem test_ldr_wraps_below : gives ((at' 0x3000#16 0x62BF#16).setCell 0xFFFF#16 0x8001#16)
    1#3 0x8001#16 0x3001#16 0b100#3 = true := by decide

theorem test_lea_negative_flag : gives (at' 0x7F00#16 0xE0FF#16) 0#3 0x8000#16 0x7F01#16 0b100#3 = true := by decide

theorem test_lea_wraps : gives (at' 0xFFFF#16 0xE000#16) 0#3 0x0000#16 0x0000#16 0b010#3 = true := by decide

/-! ### Stores (section 5) -/

theorem test_st_overwrites_itself :
    puts ((at' 0x3000#16 0x31FF#16).setReg 0#3 0xF025#16) 0x3000#16 0xF025#16 0x3001#16 0b000#3 = true := by decide

theorem test_st_to_the_status_register :
    puts (withCond 0b100#3 ((at' 0xFDFE#16 0x3001#16).setReg 0#3 0x1234#16)) 0xFE00#16 0x1234#16 0xFDFF#16 0b100#3 = true := by
  decide

theorem test_sti : puts (((at' 0x3006#16 0xBA06#16).setReg 5#3 0xEDCC#16).setCell 0x300D#16 0x4000#16)
    0x4000#16 0xEDCC#16 0x3007#16 0b000#3 = true := by decide

theorem test_str_wraps : puts (withCond 0b010#3 ((at' 0x3000#16 0x73FF#16).setReg 1#3 0xBEEF#16))
    0xFFFF#16 0xBEEF#16 0x3001#16 0b010#3 = true := by decide

/-! ### The keyboard registers (section 6) -/

theorem test_ld_of_the_status_register :
    goes (step (typing [0x41#8] [true] (at' 0xFDFE#16 0x2001#16))) (fun t => decide (t.reg 0#3 = 0x8000#16 ∧
      t.cell 0xFE00#16 = 0x8000#16 ∧ t.cell 0xFE02#16 = 0x0041#16 ∧ t.pc = 0xFDFF#16 ∧ t.cond = 0b100#3 ∧ t.kbdIn = [])) =
      true := by decide

theorem test_ldi_of_an_old_status :
    goes (step (typing [0x42#8] [false] ((((at' 0x3000#16 0xA001#16).setCell 0x3002#16 0xFE00#16).setCell
      0xFE00#16 0x8000#16).setCell 0xFE02#16 0x0041#16))) (fun t => decide (t.reg 0#3 = 0x0000#16 ∧
      t.cell 0xFE00#16 = 0x0000#16 ∧ t.cell 0xFE02#16 = 0x0041#16 ∧ t.cond = 0b010#3 ∧ t.kbdIn = [0x42#8])) = true := by
  decide

theorem test_sti_through_the_status_register :
    goes (step (typing [0x41#8] [true] ((at' 0xFDFE#16 0xB001#16).setReg 0#3 0x0055#16))) (fun t => decide (
      t.cell 0xFE00#16 = 0x8000#16 ∧ t.cell 0xFE02#16 = 0x0041#16 ∧ t.cell 0x8000#16 = 0x0055#16)) = true := by decide

theorem test_fetch_at_the_status_register :
    goes (step (typing [0x41#8] [false] (at' 0xFE00#16 0xF025#16))) (fun t => decide (t.run = .running ∧
      t.cell 0xFE00#16 = 0x0000#16 ∧ t.pc = 0xFE01#16 ∧ t.kbdIn = [0x41#8])) = true := by decide

/-! ### The trap routines (section 7) -/

theorem test_getc : goes (step (typing [0x61#8] [] (withCond 0b100#3 ((at' 0x3000#16 0xF020#16).setReg 7#3 0x1111#16))))
    (fun t => decide (t.reg 0#3 = 0x0061#16 ∧ t.reg 7#3 = 0x1111#16 ∧ t.cond = 0b100#3 ∧ t.conOut = [] ∧ t.kbdIn = [])) =
    true := by decide

theorem test_getc_waits_for_ever :
    stops (step { at' 0x3000#16 0xF020#16 with kbdEnded := true }) (.inputNeverComes []) = true := by decide

theorem test_out : emits ((at' 0x3000#16 0xFF21#16).setReg 0#3 0x1241#16) [.put 0x41#8, .flush] = true := by decide

theorem test_puts_only_a_zero_word_ends :
    emits ((((at' 0x3000#16 0xF022#16).setReg 0#3 0x4000#16).setCell 0x4000#16 0x4100#16).setCell 0x4001#16 0x0142#16)
      [.put 0x00#8, .put 0x42#8, .flush] = true := by decide

theorem test_puts_wraps :
    emits ((((at' 0x3000#16 0xF022#16).setReg 0#3 0xFFFF#16).setCell 0xFFFF#16 0x0058#16).setCell 0x0000#16 0x0059#16)
      [.put 0x58#8, .put 0x59#8, .flush] = true := by decide

theorem test_in : goes (step (typing [0x71#8] [] (withCond 0b010#3 (at' 0x3000#16 0xF023#16)))) (fun t => decide (
    t.conOut = "Enter a character: ".toList.map (fun c => .put (BitVec.ofNat 8 c.toNat)) ++ [.flush, .put 0x71#8, .flush] ∧
    t.reg 0#3 = 0x0071#16 ∧ t.cond = 0b010#3 ∧ t.kbdIn = [])) = true := by decide

theorem test_putsp :
    emits ((((at' 0x3000#16 0xF024#16).setReg 0#3 0x4000#16).setCell 0x4000#16 0x6548#16).setCell 0x4001#16 0x006C#16)
      [.put 0x48#8, .put 0x65#8, .put 0x6C#8, .flush] = true := by decide

theorem test_putsp_zero_low_byte :
    emits (((at' 0x3000#16 0xF024#16).setReg 0#3 0x4000#16).setCell 0x4000#16 0x4100#16)
      [.put 0x00#8, .put 0x41#8, .flush] = true := by decide

theorem test_halt : goes (step (withCond 0b001#3 ((at' 0x3000#16 0xF025#16).setReg 0#3 0x0007#16))) (fun t => decide (
    t.run = .halted ∧ t.reg 0#3 = 0x0007#16 ∧ t.cond = 0b001#3 ∧ t.conOut = [] ∧ t.pc = 0x3001#16)) = true := by decide

theorem test_trap_below_the_table : faults (at' 0x3000#16 0xF01F#16) .undefinedTrapVector 0xF01F#16 = true := by decide

theorem test_trap_above_the_table : faults (at' 0x3000#16 0xF026#16) .undefinedTrapVector 0xF026#16 = true := by decide

/-! ### The fatal opcodes (section 8) -/

theorem test_res : faults (withCond 0b010#3 ((at' 0x3000#16 0xD000#16).setReg 1#3 0x0005#16))
    .reservedOpcode 0xD000#16 = true := by decide

theorem test_rti : faults (at' 0x3000#16 0x8ABC#16) .unimplementedOpcode 0x8ABC#16 = true := by decide

/-! ### The host's two entry points -/

theorem test_decode_table_word : decodeTableWord 16 0x12BF = some (.addImm 1#3 2#3 0x1F#5) ∧
    decodeTableWord 8 0xF025 = some (.br 0#3 0x025#9) ∧ decodeTableWord 32 0x10000 = none := by decide

theorem test_with_fetch_word : goes (step (State.reset.withFetchWord 16 0xF025)) (fun t => decide (t.run = .halted ∧
    t.pc = 0x3001#16)) = true := by decide

/-- The image of 95_test_vectors.md S10. -/
theorem test_image_file : (LaunchParams.ofImageFile [0x30#8, 0x00#8, 0xF0#8, 0x25#8]).map
    (fun p => ((State.launch p).pc, (State.launch p).mem)) = some (0x3000#16, [(0x3000, 0xF025#16)]) := by decide

/-! ### Witnesses: states and operands that meet the hypotheses of the statements, clause by clause -/

/-- A state in RUNNING whose next word is `w`, at 0x3000. -/
def running (w : Word) : State := at' 0x3000#16 w

/-- A state at the status register, with these bytes and answers. -/
def atStatus (bytes : List Byte) (polls : List Bool) : State := typing bytes polls (at' kbsrAddr 0xF025#16)

theorem witness_DecodeReadsEveryFieldAtItsPlace :
    (0x0FFF#16).extractLsb' 12 4 = 0x0#4 ∧ (0x1000#16).extractLsb' 12 4 = 0x1#4 ∧ (0x2FFF#16).extractLsb' 12 4 = 0x2#4 ∧
    (0x3000#16).extractLsb' 12 4 = 0x3#4 ∧ (0x4FFF#16).extractLsb' 12 4 = 0x4#4 ∧ (0x5FFF#16).extractLsb' 12 4 = 0x5#4 ∧
    (0x6000#16).extractLsb' 12 4 = 0x6#4 ∧ (0x7FFF#16).extractLsb' 12 4 = 0x7#4 ∧ (0x8000#16).extractLsb' 12 4 = 0x8#4 ∧
    (0x9FFF#16).extractLsb' 12 4 = 0x9#4 ∧ (0xA000#16).extractLsb' 12 4 = 0xA#4 ∧ (0xBFFF#16).extractLsb' 12 4 = 0xB#4 ∧
    (0xC000#16).extractLsb' 12 4 = 0xC#4 ∧ (0xDFFF#16).extractLsb' 12 4 = 0xD#4 ∧ (0xE000#16).extractLsb' 12 4 = 0xE#4 ∧
    (0xFFFF#16).extractLsb' 12 4 = 0xF#4 := by decide

theorem witness_DecodeInvertsEncode : (Instr.trap 0x1F#8).wf = true ∧ (Instr.trap 0x26#8).wf = true ∧ Instr.rti.wf = true := by
  decide

theorem witness_UnusedBitsAreExactlyTheIgnoredOnes :
    0x9040#16 &&& usedBits 0x9040#16 = 0x907F#16 &&& usedBits 0x907F#16 ∧
    0x1042#16 &&& usedBits 0x1042#16 ≠ 0x1062#16 &&& usedBits 0x1062#16 := by decide

theorem witness_SignExtensionKeepsTheSignedValue : ∃ m n : Nat, (m = 5 ∨ m = 6 ∨ m = 9 ∨ m = 11) ∧
    (n = 5 ∨ n = 6 ∨ n = 9 ∨ n = 11) ∧ m ≠ n := ⟨5, 11, by decide⟩

theorem witness_StatusReadPollsAndLatchesTheAnswer :
    (atStatus [0x41#8] [true]).consolePoll.1 = some 0x41#8 ∧ (atStatus [0x41#8] [false]).consolePoll.1 = none := by decide

theorem witness_OtherReadsAreOrdinary : kbdrAddr ≠ kbsrAddr ∧ 0xFDFF#16 ≠ kbsrAddr ∧ 0xFE01#16 ≠ kbsrAddr := by decide

theorem witness_PollConsumesAtMostTheNextByte :
    (∃ s : State, ∃ b rest answers, s.kbdIn = b :: rest ∧ s.pollAnswers = true :: answers) ∧
    (∃ s : State, ∃ answers, s.pollAnswers = false :: answers) ∧
    (∃ s : State, s.kbdIn = [] ∧ s.kbdEnded = true) ∧
    (∃ s : State, ∃ b rest, s.kbdIn = b :: rest ∧ s.pollAnswers = []) ∧
    (∃ s : State, ∃ answers, s.kbdIn = [] ∧ s.kbdEnded = false ∧ s.pollAnswers = true :: answers) ∧
    (State.reset.kbdIn = [] ∧ State.reset.kbdEnded = false ∧ State.reset.pollAnswers = []) :=
  ⟨⟨atStatus [0x41#8] [true], 0x41#8, [], [], rfl, rfl⟩, ⟨atStatus [] [false], [], rfl⟩,
    ⟨{ State.reset with kbdEnded := true }, rfl, rfl⟩, ⟨atStatus [0x41#8] [], 0x41#8, [], rfl, rfl⟩,
    ⟨atStatus [] [true], [], rfl, rfl, rfl⟩, rfl, rfl, rfl⟩

theorem witness_ReadReturnsTheLatestWrite : kbdrAddr ≠ kbsrAddr ∧ 0xFFFF#16 ≠ kbsrAddr ∧ 0x0000#16 ≠ kbsrAddr := by decide

theorem witness_MemoriesThatReadAlikeAreEqual : ∃ m n : Memory, m ≠ [] ∧ Memory.wf m ∧ Memory.wf n ∧
    ∀ a : Word, Memory.get m a.toNat = Memory.get n a.toNat :=
  ⟨[(0, 0x0001#16), (65535, 0xFFFF#16)], [(0, 0x0001#16), (65535, 0xFFFF#16)], by decide, by decide, by decide, fun _ => rfl⟩

theorem witness_StepRunsTheDecodedInstruction :
    (running 0x1042#16).run = .running ∧
    decode ((running 0x1042#16).memRead (running 0x1042#16).pc) = .addReg 0#3 1#3 2#3 ∧
    (atStatus [0x41#8] [true]).run = .running ∧ decode ((atStatus [0x41#8] [true]).memRead kbsrAddr) = .rti := by decide

theorem witness_NoStepOutsideRunning :
    State.reset.halt.run = .halted ∧ (State.reset.raiseDecodeFault .reservedOpcode).run = .faulted := by decide

theorem witness_FetchAtStatusRegisterExecutesThePoll :
    (atStatus [0x41#8] [true]).run = .running ∧ (atStatus [0x41#8] [true]).pc = kbsrAddr ∧
    (atStatus [0x41#8] [true]).consolePoll.1 = some 0x41#8 ∧
    (atStatus [0x41#8] [false]).run = .running ∧ (atStatus [0x41#8] [false]).pc = kbsrAddr ∧
    (atStatus [0x41#8] [false]).consolePoll.1 = none := by decide

theorem witness_EveryStepKeepsTheInvariant : ∃ s t : State, Inv s ∧ step s = .next t :=
  ⟨running 0xD000#16, _, ⟨by decide, .inl rfl, rfl, rfl⟩, rfl⟩

theorem witness_DecodeFaultsArePreciseAndOnlyThree :
    (running 0x8FFF#16).run = .running ∧ (running 0x8FFF#16).pc ≠ kbsrAddr ∧
    causeOfWord ((running 0x8FFF#16).memRead 0x3000#16) = some .unimplementedOpcode ∧
    causeOfWord ((running 0xD000#16).memRead 0x3000#16) = some .reservedOpcode ∧
    causeOfWord ((running 0xF01F#16).memRead 0x3000#16) = some .undefinedTrapVector ∧
    causeOfWord ((running 0xF026#16).memRead 0x3000#16) = some .undefinedTrapVector ∧
    causeOfWord ((running 0xF025#16).memRead 0x3000#16) = none ∧
    causeOfWord ((atStatus [0x41#8] [true]).memRead kbsrAddr) = some .unimplementedOpcode := by decide

theorem witness_DecodeFaultsArePreciseAndOnlyThree_no_fault :
    causeOfWord ((running 0xF025#16).memRead (running 0xF025#16).pc) = none ∧ ∃ t, step (running 0xF025#16) = .next t :=
  ⟨by decide, _, rfl⟩

theorem witness_RunEndsOnlyByHaltOrDecodeFault :
    (∃ t, step (running 0xF025#16) = .next t ∧ t.EndedWell) ∧ (∃ t, step (running 0x8000#16) = .next t ∧ t.EndedByFault) ∧
    (∃ t, step (running 0x1042#16) = .next t ∧ t.run = .running) :=
  ⟨⟨_, rfl, rfl⟩, ⟨_, rfl, rfl⟩, ⟨_, rfl, rfl⟩⟩

theorem witness_OnlySevenOpcodesWriteFlags :
    (∃ t, exec (.lea 7#3 0x1FF#9) State.reset = .next t) ∧ (opcodeSetsFlags (Instr.lea 7#3 0x1FF#9).opcode = true) ∧
    (∃ t, exec (.jsr 0x400#11) State.reset = .next t) ∧ (opcodeSetsFlags (Instr.jsr 0x400#11).opcode = false) :=
  ⟨⟨_, rfl⟩, rfl, ⟨_, rfl⟩, rfl⟩

theorem witness_OnlyTheNamedRegistersChange :
    (∃ t, exec (.addReg 0#3 0#3 7#3) State.reset = .next t) ∧ writesReg (.addReg 0#3 0#3 7#3) ≠ some 7#3 ∧
    opcodeTransfers (Instr.addReg 0#3 0#3 7#3).opcode = false := ⟨⟨_, rfl⟩, by decide, rfl⟩

theorem witness_OnlyStoresAndPollsChangeMemory :
    (∃ t, exec (.st 0#3 0#9) State.reset = .next t) ∧ storesAt State.reset (.st 0#3 0#9) ≠ some 0x3001#16 ∧
    readsMemory (.st 0#3 0#9) = false ∧ (∃ t, exec (.ld 0#3 0#9) State.reset = .next t) ∧
    storesAt State.reset (.ld 0#3 0#9) ≠ some 0xFE01#16 ∧ 0xFE01#16 ≠ kbsrAddr ∧ 0xFE01#16 ≠ kbdrAddr :=
  ⟨⟨_, rfl⟩, by decide, rfl, ⟨_, rfl⟩, by decide, by decide, by decide⟩

theorem witness_ConsoleTrafficComesFromTrapsAndPolls :
    (∃ t, exec .trapHalt State.reset = .next t) ∧ ¬ writesOutput .trapHalt ∧ ¬ blocksOnInput .trapHalt ∧
    readsMemory .trapHalt = false := ⟨⟨_, rfl⟩, by simp [writesOutput], by simp [blocksOnInput], rfl⟩

theorem witness_StreamsMoveForwardOnly : ∃ t, step (typing [0x61#8] [] (running 0xF020#16)) = .next t ∧ t.kbdIn = [] :=
  ⟨_, rfl, rfl⟩

theorem witness_EveryStopHasItsReason :
    step State.reset.halt = .fault .halted ∧ step (State.reset.raiseDecodeFault .reservedOpcode) = .fault .faulted ∧
    step { running 0xF020#16 with kbdEnded := true } = .fault (.inputNeverComes []) := ⟨rfl, rfl, rfl⟩

/-- STI through a pointer at 0x3006, and STR through `x[2]`, both to 0x3001. -/
def storingNext : State := ((running 0xB205#16).setCell 0x3006#16 0x3001#16).setReg 2#3 0x3002#16

theorem witness_StoreIsSeenByTheNextFetch :
    (running 0x3200#16).run = .running ∧ decode ((running 0x3200#16).memRead (running 0x3200#16).pc) = .st 1#3 0#9 ∧
    storesAt (running 0x3200#16).fetch (.st 1#3 0#9) = some (running 0x3200#16).fetch.pc ∧
    (running 0x3200#16).fetch.pc ≠ kbsrAddr ∧
    storingNext.run = .running ∧ decode (storingNext.memRead storingNext.pc) = .sti 1#3 5#9 ∧
    storesAt storingNext.fetch (.sti 1#3 5#9) = some storingNext.fetch.pc ∧ storingNext.fetch.pc ≠ kbsrAddr ∧
    decode ((storingNext.setCell 0x3000#16 0x72BF#16).memRead storingNext.pc) = .str 1#3 2#3 0x3F#6 ∧
    storesAt (storingNext.setCell 0x3000#16 0x72BF#16).fetch (.str 1#3 2#3 0x3F#6) = some storingNext.fetch.pc := by
  decide

theorem witness_CallThenJmpR7Returns :
    (∃ t u : State, exec (.jsr 0x7FF#11) State.reset = .next t ∧ u.pc ≠ t.pc ∧ u.reg 7#3 = t.reg 7#3) ∧
    (∃ t u : State, exec (.jsrr 7#3) State.reset = .next t ∧ u.pc ≠ t.pc ∧ u.reg 7#3 = t.reg 7#3) :=
  ⟨⟨_, State.setPc _ 0x4321#16, rfl, by decide, rfl⟩, ⟨_, State.setPc _ 0x4321#16, rfl, by decide, rfl⟩⟩

theorem witness_LdLoadsTheAddressedWord :
    State.reset.pcRel9 0x100#9 ≠ kbsrAddr ∧ (at' 0xFE01#16 0#16).pcRel9 0x1FF#9 = kbsrAddr := by decide

theorem witness_LdiLoadsThroughThePointer :
    State.reset.pcRel9 0x0FF#9 ≠ kbsrAddr ∧ State.reset.cell (State.reset.pcRel9 0x0FF#9) ≠ kbsrAddr := by decide

theorem witness_LdrLoadsFromBasePlusOffset : State.reset.baseOff6 7#3 0x20#6 ≠ kbsrAddr := by decide

theorem witness_StiStoresThroughThePointer : State.reset.pcRel9 0x1FF#9 ≠ kbsrAddr := by decide

theorem witness_GetcStoresTheNextByte_and_InPromptsReadsAndEchoes :
    (∃ s : State, ∃ b rest, s.kbdIn = b :: rest) ∧ (State.reset.kbdIn = [] ∧ State.reset.kbdEnded = false) ∧
    (∃ s : State, ∃ w, s.kbdIn = [] ∧ s.kbdEnded = true ∧ s.consoleEof = .value w) :=
  ⟨⟨typing [0xFF#8] [] State.reset, 0xFF#8, [], rfl⟩, ⟨rfl, rfl⟩,
    ⟨{ State.reset with kbdEnded := true, consoleEof := .value 0xFFFF#16 }, 0xFFFF#16, rfl, rfl, rfl⟩⟩

theorem witness_BlockedReadHasNoSuccessor :
    ∃ s : State, s.kbdIn = [] ∧ s.kbdEnded = true ∧ s.consoleEof = .stuck := ⟨{ State.reset with kbdEnded := true }, rfl, rfl, rfl⟩

/-- A state with the string of 95_test_vectors.md S6 at 0xFFFF, so that the address wraps. -/
def stringState : State := ((State.reset.setReg 0#3 0xFFFF#16).setCell 0xFFFF#16 0x0048#16).setCell 0x0000#16 0x4949#16

theorem witness_PutsWritesTheLowBytes_and_PutspWritesBothBytes :
    (∀ k (h : k < [0x0048#16, 0x4949#16].length),
      stringState.cell (stringState.reg 0#3 + BitVec.ofNat 16 k) = [0x0048#16, 0x4949#16][k] ∧
        [0x0048#16, 0x4949#16][k] ≠ 0x0000#16) ∧
    stringState.cell (stringState.reg 0#3 + BitVec.ofNat 16 [0x0048#16, 0x4949#16].length) = 0x0000#16 ∧
    (∀ k, k ≤ [0x0048#16, 0x4949#16].length → stringState.reg 0#3 + BitVec.ofNat 16 k ≠ kbsrAddr) := by decide

/-- A string of one word just below the status register, where the next poll finds no byte and so ends it. -/
def crossing : State := ((typing [0x41#8] [false] State.reset).setReg 0#3 0xFDFF#16).setCell 0xFDFF#16 0x0048#16

theorem witness_StringRoutinesFollowTheLoop :
    (∃ t, exec .trapPuts crossing = .next t) ∧ (∃ t, exec .trapPutsp crossing = .next t) ∧
    (∃ u, PrintedString (fun w => [w.extractLsb' 0 8]) crossing (crossing.reg 0#3) u) ∧
    (∃ u, PrintedString (fun w => if w.extractLsb' 8 8 = 0x00#8 then [w.extractLsb' 0 8]
      else [w.extractLsb' 0 8, w.extractLsb' 8 8]) crossing (crossing.reg 0#3) u) ∧
    (∃ s : State, s.kbdEnded = true) ∧ false ∈ crossing.pollAnswers :=
  ⟨goes_next (by decide), goes_next (by decide), ⟨_, .more _ _ _ (by decide) (.stop _ _ (by decide))⟩,
    ⟨_, .more _ _ _ (by decide) (.stop _ _ (by decide))⟩, ⟨{ State.reset with kbdEnded := true }, rfl⟩, by decide⟩

theorem witness_FatalInstructionsTakeTheDecodeFault :
    undefinedVector 0x00#8 = true ∧ undefinedVector 0x1F#8 = true ∧ undefinedVector 0x26#8 = true ∧
    undefinedVector 0xFF#8 = true := by decide

theorem witness_ImageFileIsLoadedFromItsOrigin :
    (∃ p, LaunchParams.ofImageFile [0x30#8, 0x00#8, 0xF0#8, 0x25#8] = some p ∧ p.image ≠ []) ∧
    (∃ p, LaunchParams.ofImageFile [0xFF#8, 0xFF#8, 0xF0#8, 0x25#8] = some p ∧ p.image ≠ []) :=
  ⟨⟨_, rfl, by decide⟩, ⟨_, rfl, by decide⟩⟩

end Sys2Proof.Tests
end

section
/-! PROOF. Sign extension (spec/00_scope.md R1): the value of the extended word, unsigned and signed, for a field of any
width up to that of a word; and the value and the sign bit of the low bits of a word. -/

namespace Sys2Proof.Machine

/-- The low `n` bits of a word, as a number. -/
theorem toNat_lowBits (v : Word) (n : Nat) : (v.extractLsb' 0 n).toNat = v.toNat % 2 ^ n := by
  rw [BitVec.extractLsb'_toNat, Nat.shiftRight_zero]

/-- The sign of the low `n` bits of a word is its bit `n - 1`. -/
theorem msb_lowBits (v : Word) {n : Nat} (hn : 0 < n) : (v.extractLsb' 0 n).msb = v.getLsbD (n - 1) := by
  rw [BitVec.msb_eq_getLsbD_last, BitVec.getLsbD_extractLsb', Nat.zero_add]
  simp [hn]

/-- R1's formula: a negative field gains the bits of 0xFFFF shifted left past it, any other field keeps its number. -/
theorem toNat_sext {n : Nat} (f : BitVec n) (hn : n ≤ 16) :
    (sext f).toNat = if f.msb then (f.toNat + 0xFFFF * 2 ^ n) % 65536 else f.toNat := by
  have hpow : 2 ^ n ≤ 2 ^ 16 := Nat.pow_le_pow_right (by decide) hn
  have hlt : f.toNat < 2 ^ n := f.isLt
  rw [sext, BitVec.toNat_signExtend, BitVec.toNat_setWidth_of_le hn]
  split
  · omega
  · rfl

/-- Sign extension keeps the signed value. -/
theorem toInt_sext {n : Nat} (f : BitVec n) (hn : n ≤ 16) : (sext f).toInt = f.toInt :=
  BitVec.toInt_signExtend_of_le hn

/-- Settles O6: the formula, the signed value and its range hold for every width from 1 to 16. -/
theorem signExtensionKeepsTheSignedValue : Obligations.SignExtensionKeepsTheSignedValue := by
  unfold Obligations.SignExtensionKeepsTheSignedValue
  intro n hwidth v
  have hpos : 0 < n := by omega
  have hle : n ≤ 16 := by omega
  rw [toInt_sext _ hle, toNat_sext _ hle, msb_lowBits v hpos, toNat_lowBits]
  exact ⟨rfl, rfl, BitVec.le_toInt _, BitVec.toInt_lt⟩

end Sys2Proof.Machine
end

section
/-! PROOF. The console's operations in each case of the environment (10_state.md R22 to R24): one equation per case of the
next byte, of a poll and of a blocking read, and what a read takes of the input. -/

namespace Sys2Proof.Machine

theorem State.nextByte_of_listed {s : State} {b : Byte} {rest : List Byte} (h : s.kbdIn = b :: rest) :
    s.nextByte = some (b, { s with kbdIn := rest, kbdTaken := s.kbdTaken + 1 }) := by
  simp only [State.nextByte, h]

theorem State.nextByte_of_open {s : State} (h : s.kbdIn = []) (ho : s.kbdEnded = false) :
    s.nextByte = some (freeByte s.kbdTaken, { s with kbdTaken := s.kbdTaken + 1 }) := by
  simp [State.nextByte, h, ho]

theorem State.nextByte_of_ended {s : State} (h : s.kbdIn = []) (he : s.kbdEnded = true) : s.nextByte = none := by
  simp [State.nextByte, h, he]

theorem State.pollNow_of_listed {s : State} {x : Bool} {answers : List Bool} (h : s.pollAnswers = x :: answers) :
    s.pollNow = x := by
  simp only [State.pollNow, h]

theorem State.polled_of_listed {s : State} {x : Bool} {answers : List Bool} (h : s.pollAnswers = x :: answers) :
    s.polled = { s with pollAnswers := answers, pollsDone := s.pollsDone + 1 } := by
  simp only [State.polled, h, List.tail_cons]

/-- A poll answered yes consumes the next byte. -/
theorem State.consolePoll_of_ready {s t : State} {b : Byte} (hp : s.pollNow = true) (hb : s.polled.nextByte = some (b, t)) :
    s.consolePoll = (some b, t) := by
  simp [State.consolePoll, hb, hp]

/-- A poll answered no only counts. -/
theorem State.consolePoll_of_silent {s : State} (hp : s.pollNow = false) : s.consolePoll = (none, s.polled) := by
  unfold State.consolePoll
  cases s.polled.nextByte with
  | none => rfl
  | some p => simp [hp]

/-- A poll after the end of the stream only counts, whatever its answer. -/
theorem State.consolePoll_of_ended {s : State} (hb : s.polled.nextByte = none) : s.consolePoll = (none, s.polled) := by
  simp only [State.consolePoll, hb]

/-- A poll is answered one way or the other. -/
theorem State.consolePoll_of_next {s t : State} {b : Byte} (hb : s.polled.nextByte = some (b, t)) :
    s.consolePoll = (none, s.polled) ∨ s.consolePoll = (some b, t) := by
  cases hp : s.pollNow with
  | false => exact .inl (State.consolePoll_of_silent hp)
  | true => exact .inr (State.consolePoll_of_ready hp hb)

/-- Settles O11, from the equations of the next byte and of a poll. -/
theorem pollConsumesAtMostTheNextByte : Obligations.PollConsumesAtMostTheNextByte := by
  unfold Obligations.PollConsumesAtMostTheNextByte
  intro s
  refine ⟨fun b rest answers hk ha => ?_, fun answers ha => ?_, fun hk he => ?_, fun b rest hk ha => ?_,
    fun answers hk ho ha => ?_, fun hk ho ha => ?_⟩
  · rw [State.consolePoll_of_ready (State.pollNow_of_listed ha) (State.nextByte_of_listed (s := s.polled) hk),
      State.polled_of_listed ha]
  · rw [State.consolePoll_of_silent (State.pollNow_of_listed ha), State.polled_of_listed ha]
  · exact State.consolePoll_of_ended (State.nextByte_of_ended (s := s.polled) hk he)
  · exact State.consolePoll_of_next (State.nextByte_of_listed (s := s.polled) hk)
  · rw [State.consolePoll_of_ready (State.pollNow_of_listed ha) (State.nextByte_of_open (s := s.polled) hk ho),
      State.polled_of_listed ha]
    exact ⟨_, rfl⟩
  · exact (State.consolePoll_of_next (State.nextByte_of_open (s := s.polled) hk ho)).imp_right fun h => ⟨_, h⟩

/-- A blocking read after the end of the stream waits for ever where `CONSOLE_EOF` is `stuck`. -/
theorem State.consoleGet_of_stuck {s : State} (hk : s.kbdIn = []) (he : s.kbdEnded = true) (hs : s.consoleEof = .stuck) :
    s.consoleGet = none := by
  simp only [State.consoleGet, State.nextByte_of_ended hk he, hs]

/-- Settles O55: the read of GETC, and that of IN after the prompt and its flush, meets the ended stream. -/
theorem blockedReadHasNoSuccessor : Obligations.BlockedReadHasNoSuccessor := by
  unfold Obligations.BlockedReadHasNoSuccessor
  intro s hk he hs
  have hin : State.consoleGet (s.consolePutAll s.inPrompt).consoleFlush = none := State.consoleGet_of_stuck hk he hs
  constructor
  · simp only [exec, execTrapGetc, State.consoleGet_of_stuck hk he hs]
  · simp only [exec, execTrapIn, hin, State.consoleFlush_conOut, State.consolePutAll_conOut]

/-- A read leaves the listed input, but for bytes taken from its front. -/
theorem State.afterRead_kbdIn_suffix (s : State) (a : Word) : (s.afterRead a).kbdIn <:+ s.kbdIn := by
  unfold State.afterRead
  split
  · rcases s.pollStatus_cases with ⟨-, h⟩ | ⟨b, -, -, -, h⟩ <;> rw [h]
    · exact List.suffix_rfl
    · exact List.tail_suffix _
  · exact List.suffix_rfl

/-- A read leaves the listed poll answers, but for one taken from their front. -/
theorem State.afterRead_pollAnswers_suffix (s : State) (a : Word) : (s.afterRead a).pollAnswers <:+ s.pollAnswers := by
  unfold State.afterRead
  split
  · rcases s.pollStatus_cases with ⟨-, h⟩ | ⟨b, -, -, -, h⟩ <;> rw [h] <;> exact List.tail_suffix _
  · exact List.suffix_rfl

end Sys2Proof.Machine
end

section
/-! PROOF. What the meaning of an instruction can do to the state, said once: HALT and the fatal instructions change the
control state alone, and every other instruction only makes the effects that the tables of Sys2Proof/Safety.lean allow
it, so that what these effects keep, the instruction keeps. -/

namespace Sys2Proof.Machine

/-- The cause of the decode fault an instruction raises (60_exceptions.md R140). -/
def fatalCause : Instr → Option FaultCause
  | .res => some .reservedOpcode
  | .rti => some .unimplementedOpcode
  | .trap _ => some .undefinedTrapVector
  | _ => none

theorem causeOfWord_eq_fatalCause (w : Word) : causeOfWord w = fatalCause (decode w) :=
  (causeOfWord_decode w).trans (by cases decode w <;> rfl)

/-- `P` is kept by each effect that the instruction `i`, executed in `s`, may have while it runs. The polls of its reads
are part of `read`, the bytes a blocking read takes are `take`. -/
structure KeptByEffects (i : Instr) (s : State) (P : State → Prop) : Prop where
  setReg : ∀ r, writesReg i = some r → ∀ u v, P u → P (u.setReg r v)
  setCC : opcodeSetsFlags i.opcode = true → ∀ u v, P u → P (u.setCC v)
  setPc : opcodeTransfers i.opcode = true → ∀ u a, P u → P (u.setPc a)
  read : readsMemory i = true → ∀ u a, P u → P (u.afterRead a)
  store : ∀ a, storesAt s i = some a → ∀ u v, P u → P (u.setCell a v)
  take : blocksOnInput i → ∀ u ks n, ks <:+ u.kbdIn → P u → P { u with kbdIn := ks, kbdTaken := n }
  append : writesOutput i → ∀ u out, P u → P { u with conOut := u.conOut ++ out }

namespace KeptByEffects

variable {i : Instr} {s : State} {P : State → Prop} (k : KeptByEffects i s P)
include k

theorem writeResult {dr : Reg} (hd : writesReg i = some dr) (hf : opcodeSetsFlags i.opcode = true) {u : State} (v : Word)
    (hu : P u) : P (u.writeResult dr v) :=
  k.setCC hf _ _ (k.setReg dr hd u v hu)

theorem loadFrom {dr : Reg} (hd : writesReg i = some dr) (hf : opcodeSetsFlags i.opcode = true)
    (hr : readsMemory i = true) {u : State} (ea : Word) (hu : P u) : P (u.loadFrom dr ea) :=
  k.writeResult hd hf _ (k.read hr u ea hu)

theorem stringRoutine (hr : readsMemory i = true) (ho : writesOutput i) {bytesOf : Word → List Byte} {a : Word}
    {u t : State} (h : stringResult (State.stringEnd bytesOf a u) = .next t) (hu : P u) : P t := by
  obtain ⟨n, e, he, rfl⟩ := stringResult_reads h
  exact k.append ho e [.flush] (State.printString_induct P (k.read hr) (fun v bs => k.append ho v (bs.map .put))
    bytesOf n a u e he hu)

theorem trapGetc (hd : writesReg i = some trapReg) (hb : blocksOnInput i) {u t : State} (h : execTrapGetc u = .next t)
    (hu : P u) : P t := by
  obtain ⟨w, ks, n, rfl, taken, hk⟩ := execTrapGetc_next h
  exact k.setReg trapReg hd _ w (k.take hb u ks n ⟨taken, hk.symm⟩ hu)

theorem trapIn (hd : writesReg i = some trapReg) (hb : blocksOnInput i) (ho : writesOutput i) {u t : State}
    (h : execTrapIn u = .next t) (hu : P u) : P t := by
  obtain ⟨w, ks, n, out, rfl, taken, hk⟩ := execTrapIn_next h
  exact k.setReg trapReg hd _ w (k.append ho _ out (k.take hb u ks n ⟨taken, hk.symm⟩ hu))

end KeptByEffects

/-- Everything the meaning of an instruction that answers a next state can do. -/
theorem exec_cases {i : Instr} {s t : State} (h : exec i s = .next t) :
    (i = .trapHalt ∧ t = s.halt) ∨ (∃ c, fatalCause i = some c ∧ t = s.raiseDecodeFault c) ∨
    ∀ P, KeptByEffects i s P → P s → P t := by
  cases i with
  | trapHalt => cases h; exact .inl ⟨rfl, rfl⟩
  | res | rti | trap => cases h; exact .inr (.inl ⟨_, rfl, rfl⟩)
  | addReg | addImm | andReg | andImm | notReg | lea =>
    cases h; exact .inr (.inr fun P k hs => k.writeResult rfl rfl _ hs)
  | ld | ldr => cases h; exact .inr (.inr fun P k hs => k.loadFrom rfl rfl rfl _ hs)
  | ldi => cases h; exact .inr (.inr fun P k hs => k.loadFrom rfl rfl rfl _ (k.read rfl s _ hs))
  | st | str => cases h; exact .inr (.inr fun P k hs => k.store _ rfl s _ hs)
  | sti => cases h; exact .inr (.inr fun P k hs => k.store _ rfl _ _ (k.read rfl s _ hs))
  | br nzp off =>
    cases h
    refine .inr (.inr fun P k hs => ?_)
    split
    · exact k.setPc rfl s _ hs
    · exact hs
  | jmp => cases h; exact .inr (.inr fun P k hs => k.setPc rfl s _ hs)
  | jsr | jsrr => cases h; exact .inr (.inr fun P k hs => k.setPc rfl _ _ (k.setReg linkReg rfl s _ hs))
  | trapGetc => exact .inr (.inr fun P k hs => k.trapGetc rfl (.inl rfl) h hs)
  | trapIn => exact .inr (.inr fun P k hs => k.trapIn rfl (.inr rfl) (.inr (.inr (.inl rfl))) h hs)
  | trapOut =>
    cases h
    have ho : writesOutput .trapOut := .inl rfl
    exact .inr (.inr fun P k hs => k.append ho _ [.flush] (k.append ho s [.put _] hs))
  | trapPuts => exact .inr (.inr fun P k hs => k.stringRoutine rfl (.inr (.inl rfl)) h hs)
  | trapPutsp => exact .inr (.inr fun P k hs => k.stringRoutine rfl (.inr (.inr (.inr rfl))) h hs)

/-- Each instruction of the seven flag-setting opcodes ends by writing its destination and setting COND from it. -/
theorem exec_of_setsFlags {i : Instr} (s : State) (h : opcodeSetsFlags i.opcode = true) :
    ∃ (u : State) (dr : Reg) (v : Word), writesReg i = some dr ∧ exec i s = .next (u.writeResult dr v) := by
  cases i with
  | addReg | addImm | andReg | andImm | notReg | ld | ldi | ldr | lea => exact ⟨_, _, _, rfl, rfl⟩
  | br | st | jsr | jsrr | str | rti | sti | jmp | res => cases h
  | trapGetc | trapOut | trapPuts | trapIn | trapPutsp | trapHalt | trap => cases h

end Sys2Proof.Machine
end

section
/-! PROOF. The invariant: it holds at reset and in every launch state, the fetch keeps it, and so does every instruction. -/

namespace Sys2Proof.Machine

/-- Overlaying an image keeps the canonical form of memory. -/
theorem Memory.overlay_wf (image : List (Word × Word)) (m : Memory) (hm : m.wf) : Memory.wf (Memory.overlay m image) := by
  induction image generalizing m with
  | nil => exact hm
  | cons c rest ih => exact ih _ (Memory.set_word_wf m c.1 c.2 hm)

/-- Settles O20: reset lists no cell, clears COND and records no fault. -/
theorem invariantHoldsAtReset : Obligations.InvariantHoldsAtReset :=
  ⟨Memory.reset_wf, .inl rfl, rfl, rfl⟩

/-- Settles O21: the image is overlaid on the memory of reset, and no other field of the invariant differs from it. -/
theorem invariantHoldsAtLaunch : Obligations.InvariantHoldsAtLaunch := by
  unfold Obligations.InvariantHoldsAtLaunch
  intro p
  have hreset : Inv State.reset := invariantHoldsAtReset
  exact ⟨Memory.overlay_wf p.image _ hreset.mem_wf, hreset.cond_legal, hreset.fault_record⟩

theorem flagOf_legal (v : Word) : CondLegal (flagOf v) := by
  rcases flagOf_cases v with h | h | h <;> rw [h]
  · exact .inr (.inr (.inr rfl))
  · exact .inr (.inr (.inl rfl))
  · exact .inr (.inl rfl)

/-- The fault record speaks of the run state and the two fault latches alone. -/
theorem FaultRecordOk.congr {s t : State} (h : FaultRecordOk s) (hr : t.run = s.run)
    (hc : t.faultCause = s.faultCause) (hi : t.faultInstr = s.faultInstr) : FaultRecordOk t := by
  unfold FaultRecordOk
  rw [hr, hc, hi]
  exact h

theorem Inv.afterRead {s : State} (h : Inv s) (a : Word) : Inv (s.afterRead a) where
  mem_wf := s.afterRead_wf a h.mem_wf
  cond_legal := by rw [State.afterRead_cond]; exact h.cond_legal
  fault_record := h.fault_record.congr (s.afterRead_run a) (s.afterRead_faultCause a) (s.afterRead_faultInstr a)

theorem Inv.fetch {s : State} (h : Inv s) : Inv s.fetch :=
  have hread := h.afterRead s.pc
  ⟨hread.mem_wf, hread.cond_legal, hread.fault_record⟩

/-- In RUNNING the invariant says that the fault latches are empty. -/
theorem Inv.no_fault {s : State} (h : Inv s) (hr : s.run = .running) : s.faultCause = none ∧ s.faultInstr = none := by
  have hrec := h.fault_record
  unfold FaultRecordOk at hrec
  rw [hr] at hrec
  exact hrec

theorem Inv.halt {s : State} (h : Inv s) (hr : s.run = .running) : Inv s.halt :=
  ⟨h.mem_wf, h.cond_legal, h.no_fault hr⟩

theorem Inv.raiseDecodeFault {s : State} (h : Inv s) {c : FaultCause} (hc : causeOfWord s.instr = some c) :
    Inv (s.raiseDecodeFault c) :=
  ⟨h.mem_wf, h.cond_legal, s.instr, c, rfl, rfl, hc⟩

/-- No effect of an instruction other than HALT and the fatal ones can break the invariant. -/
theorem Inv.keptByEffects (i : Instr) (s : State) : KeptByEffects i s Inv where
  setReg _ _ _ _ h := ⟨h.mem_wf, h.cond_legal, h.fault_record⟩
  setCC _ _ v h := ⟨h.mem_wf, flagOf_legal v, h.fault_record⟩
  setPc _ _ _ h := ⟨h.mem_wf, h.cond_legal, h.fault_record⟩
  read _ _ a h := h.afterRead a
  store a _ u v h := ⟨u.setCell_wf a v h.mem_wf, h.cond_legal, h.fault_record⟩
  take _ _ _ _ _ h := ⟨h.mem_wf, h.cond_legal, h.fault_record⟩
  append _ _ _ h := ⟨h.mem_wf, h.cond_legal, h.fault_record⟩

/-- Settles O19: the fetch keeps the invariant, and then HALT, the decode fault of the latched word and the effects of
every other instruction do. -/
theorem everyStepKeepsTheInvariant : Obligations.EveryStepKeepsTheInvariant := by
  unfold Obligations.EveryStepKeepsTheInvariant
  intro s t hinv h
  obtain ⟨hrun, hexec⟩ := step_next h
  rcases exec_cases hexec with ⟨-, rfl⟩ | ⟨c, hc, rfl⟩ | hkept
  · exact hinv.fetch.halt (s.fetch_run.trans hrun)
  · exact hinv.fetch.raiseDecodeFault ((causeOfWord_eq_fatalCause _).trans hc)
  · exact hkept Inv (Inv.keptByEffects _ _) hinv.fetch

end Sys2Proof.Machine
end

section
/-! PROOF. Registers, `pc` and COND (10_state.md R10 to R16): what the flag update does, which instructions make it, and
which registers an instruction leaves alone. -/

namespace Sys2Proof.Machine

/-- The flag of a value, by its number: the top bit is the sign (10_state.md R13, R14). -/
theorem flagOf_eq (v : Word) :
    flagOf v = if 32768 ≤ v.toNat then 0b100#3 else if v.toNat = 0 then 0b010#3 else 0b001#3 := by
  have hsign : v.getLsbD 15 = decide (32768 ≤ v.toNat) := by
    rw [← BitVec.msb_eq_getLsbD_last, BitVec.msb_eq_decide]
  have hzero : v = 0x0000#16 ↔ v.toNat = 0 := BitVec.toNat_inj.symm
  simp only [flagOf, hsign, hzero, decide_eq_true_eq, flagN, flagZ, flagP]

/-- Settles O8: COND is the flag of the value, and no other field is written. -/
theorem setCCSetsTheFlagOfTheValue : Obligations.SetCCSetsTheFlagOfTheValue := by
  unfold Obligations.SetCCSetsTheFlagOfTheValue
  intro s v
  exact ⟨flagOf_eq v, rfl, fun _ => rfl, rfl, fun _ => rfl, ⟨rfl, rfl, rfl, rfl⟩,
    ⟨rfl, rfl, rfl, rfl, rfl⟩, rfl, rfl, rfl⟩

/-- Of the effects of an instruction only the flag update writes COND. -/
theorem cond_keptByEffects {i : Instr} (hf : opcodeSetsFlags i.opcode = false) (s : State) (c : BitVec 3) :
    KeptByEffects i s (·.cond = c) where
  setReg _ _ _ _ h := h
  setCC hf' := by rw [hf] at hf'; cases hf'
  setPc _ _ _ h := h
  read _ u a h := (u.afterRead_cond a).trans h
  store _ _ _ _ h := h
  take _ _ _ _ _ h := h
  append _ _ _ h := h

/-- An instruction of another opcode than the seven keeps COND. -/
theorem exec_cond {i : Instr} {s t : State} (h : exec i s = .next t) (hf : opcodeSetsFlags i.opcode = false) :
    t.cond = s.cond := by
  rcases exec_cases h with ⟨-, rfl⟩ | ⟨c, -, rfl⟩ | hkept
  · rfl
  · rfl
  · exact hkept (·.cond = s.cond) (cond_keptByEffects hf s _) rfl

/-- Settles O24: the seven opcodes end in the one write of a result, and no effect of the others writes COND. -/
theorem onlySevenOpcodesWriteFlags : Obligations.OnlySevenOpcodesWriteFlags := by
  unfold Obligations.OnlySevenOpcodesWriteFlags
  intro i s t h
  refine ⟨fun hf => ?_, exec_cond h⟩
  obtain ⟨u, dr, v, hd, hexec⟩ := exec_of_setsFlags s hf
  cases hexec.symm.trans h
  exact ⟨dr, hd, by rw [State.writeResult_cond, State.writeResult_reg_same]⟩

/-- Of the effects of an instruction only the write of its own register changes a general register. -/
theorem reg_keptByEffects {i : Instr} {r : Reg} (hr : writesReg i ≠ some r) (s : State) (v : Word) :
    KeptByEffects i s (·.reg r = v) where
  setReg _ hd u w h := (u.reg_setReg_ne w fun e => hr (hd.trans (congrArg some e.symm))).trans h
  setCC _ _ _ h := h
  setPc _ _ _ h := h
  read _ u a h := (u.reg_afterRead a r).trans h
  store _ _ _ _ h := h
  take _ _ _ _ _ h := h
  append _ _ _ h := h

/-- Of the effects of an instruction only a transfer changes `pc`. -/
theorem pc_keptByEffects {i : Instr} (ht : opcodeTransfers i.opcode = false) (s : State) (a : Word) :
    KeptByEffects i s (·.pc = a) where
  setReg _ _ _ _ h := h
  setCC _ _ _ h := h
  setPc ht' := by rw [ht] at ht'; cases ht'
  read _ u b h := (u.afterRead_pc b).trans h
  store _ _ _ _ h := h
  take _ _ _ _ _ h := h
  append _ _ _ h := h

/-- Settles O25: neither HALT nor a decode fault touches a register or `pc`, nor does any effect of another instruction
but the write of its own register and a transfer. -/
theorem onlyTheNamedRegistersChange : Obligations.OnlyTheNamedRegistersChange := by
  unfold Obligations.OnlyTheNamedRegistersChange
  intro i s t h
  rcases exec_cases h with ⟨-, rfl⟩ | ⟨c, -, rfl⟩ | hkept
  · exact ⟨fun _ _ => rfl, fun _ => rfl⟩
  · exact ⟨fun _ _ => rfl, fun _ => rfl⟩
  · exact ⟨fun r hr => hkept (·.reg r = s.reg r) (reg_keptByEffects hr s _) rfl,
      fun ht => hkept (·.pc = s.pc) (pc_keptByEffects ht s _) rfl⟩

end Sys2Proof.Machine
end

section
/-! PROOF. The streams of the environment over a step (10_state.md R22 to R26, D13). -/

namespace Sys2Proof.Machine

/-- `t` comes after `s` in the console's streams: the output has only grown, the listed input and the listed poll answers
have only been taken from their front, and the end of the stream and the launch parameters are as they were. -/
structure StreamsForward (s t : State) : Prop where
  out : s.conOut <+: t.conOut
  input : t.kbdIn <:+ s.kbdIn
  answers : t.pollAnswers <:+ s.pollAnswers
  ended : t.kbdEnded = s.kbdEnded
  params : SameParams s t

namespace StreamsForward

/-- A state with the console of `s` comes after `s`. -/
theorem refl (s : State) : StreamsForward s s :=
  ⟨List.prefix_rfl, List.suffix_rfl, List.suffix_rfl, rfl, rfl, rfl⟩

theorem afterRead {s u : State} (h : StreamsForward s u) (a : Word) : StreamsForward s (u.afterRead a) where
  out := by rw [State.afterRead_conOut]; exact h.out
  input := (u.afterRead_kbdIn_suffix a).trans h.input
  answers := (u.afterRead_pollAnswers_suffix a).trans h.answers
  ended := (u.afterRead_kbdEnded a).trans h.ended
  params := ⟨(u.afterRead_inPrompt a).trans h.params.1, (u.afterRead_consoleEof a).trans h.params.2⟩

theorem fetch (s : State) : StreamsForward s s.fetch :=
  have h := (refl s).afterRead s.pc
  ⟨h.out, h.input, h.answers, h.ended, h.params⟩

/-- Every effect of an instruction moves the streams forward or leaves them. -/
theorem keptByEffects (i : Instr) (s s₀ : State) : KeptByEffects i s (StreamsForward s₀) where
  setReg _ _ _ _ h := ⟨h.out, h.input, h.answers, h.ended, h.params⟩
  setCC _ _ _ h := ⟨h.out, h.input, h.answers, h.ended, h.params⟩
  setPc _ _ _ h := ⟨h.out, h.input, h.answers, h.ended, h.params⟩
  read _ _ a h := h.afterRead a
  store _ _ _ _ h := ⟨h.out, h.input, h.answers, h.ended, h.params⟩
  take _ _ _ _ hk h := ⟨h.out, hk.trans h.input, h.answers, h.ended, h.params⟩
  append _ _ _ h := ⟨h.out.trans (List.prefix_append _ _), h.input, h.answers, h.ended, h.params⟩

theorem of_step {s t : State} (h : step s = .next t) : StreamsForward s t := by
  obtain ⟨-, hexec⟩ := step_next h
  have hfetch := fetch s
  rcases exec_cases hexec with ⟨-, rfl⟩ | ⟨c, -, rfl⟩ | hkept
  · exact ⟨hfetch.out, hfetch.input, hfetch.answers, hfetch.ended, hfetch.params⟩
  · exact ⟨hfetch.out, hfetch.input, hfetch.answers, hfetch.ended, hfetch.params⟩
  · exact hkept (StreamsForward s) (keptByEffects _ _ s) hfetch

end StreamsForward

/-- Settles O28: the fetch and each effect of the instruction move the streams forward. -/
theorem streamsMoveForwardOnly : Obligations.StreamsMoveForwardOnly := by
  unfold Obligations.StreamsMoveForwardOnly
  intro s t h
  obtain ⟨⟨out, hout⟩, ⟨taken, htaken⟩, ⟨asked, hasked⟩, hended, hparams⟩ := StreamsForward.of_step h
  exact ⟨⟨out, hout.symm⟩, ⟨taken, htaken.symm⟩, ⟨asked, hasked.symm⟩, hended, hparams⟩

end Sys2Proof.Machine
end

section
/-! PROOF. The instruction latch between steps (10_state.md R20), and the values at reset (10_state.md R28). -/

namespace Sys2Proof.Machine

/-- `s` with `w` in the instruction latch. -/
def State.setInstr (s : State) (w : Word) : State := { s with instr := w }

theorem State.nextByte_setInstr (s : State) (w : Word) :
    (s.setInstr w).nextByte = s.nextByte.map fun p => (p.1, p.2.setInstr w) := by
  unfold State.nextByte
  rw [show (s.setInstr w).kbdIn = s.kbdIn from rfl, show (s.setInstr w).kbdEnded = s.kbdEnded from rfl]
  cases s.kbdIn with
  | cons b rest => rfl
  | nil => cases s.kbdEnded <;> rfl

theorem State.consolePoll_setInstr (s : State) (w : Word) :
    (s.setInstr w).consolePoll = (s.consolePoll.1, s.consolePoll.2.setInstr w) := by
  unfold State.consolePoll
  rw [show (s.setInstr w).polled = s.polled.setInstr w from rfl, show (s.setInstr w).pollNow = s.pollNow from rfl,
    State.nextByte_setInstr]
  cases s.polled.nextByte with
  | none => rfl
  | some p => cases s.pollNow <;> rfl

theorem State.afterRead_setInstr (s : State) (w a : Word) : (s.setInstr w).afterRead a = (s.afterRead a).setInstr w := by
  unfold State.afterRead State.pollStatus
  rw [State.consolePoll_setInstr]
  rcases s.consolePoll with ⟨_ | b, t⟩ <;> split <;> rfl

/-- The fetch overwrites the latch. -/
theorem State.fetch_setInstr (s : State) (w : Word) : (s.setInstr w).fetch = s.fetch := by
  have hcell : (s.setInstr w).memRead s.pc = s.memRead s.pc := by
    unfold State.memRead
    rw [State.afterRead_setInstr]
    rfl
  unfold State.fetch
  rw [show (s.setInstr w).pc = s.pc from rfl, hcell, State.afterRead_setInstr]
  rfl

/-- Settles O30: a step depends on the latch only through the fetch, which overwrites it. -/
theorem latchHasNoEffectBetweenSteps : Obligations.LatchHasNoEffectBetweenSteps := by
  unfold Obligations.LatchHasNoEffectBetweenSteps
  intro s w
  change step (s.setInstr w) = step s
  unfold step
  rw [State.fetch_setInstr]
  rfl

/-- Settles O58: every register of the file and, with no cell listed, every word of memory is 0. -/
theorem resetValuesOfTheManual : Obligations.ResetValuesOfTheManual := by
  unfold Obligations.ResetValuesOfTheManual
  refine ⟨fun r => ?_, rfl, rfl, fun _ => rfl, rfl, rfl, rfl, rfl⟩
  simp [State.reg, State.reset]

end Sys2Proof.Machine
end

section
/-! PROOF. memory_interface (20_memory.md R30 to R37, R43): a read of the status register in each case of its poll, every
other read, and a write. -/

namespace Sys2Proof.Machine

theorem kbsrAddr_ne_kbdrAddr : kbsrAddr ≠ kbdrAddr := by decide

/-- A read of the status register is a poll. -/
theorem State.afterRead_status (s : State) : s.afterRead kbsrAddr = s.pollStatus := if_pos rfl

/-- `ConsolePoll()` itself touches no cell: the latching is left to the read. -/
theorem State.consolePoll_mem (s : State) : s.consolePoll.2.mem = s.mem := by
  rcases s.consolePoll_cases with h | ⟨b, h, -⟩ <;> rw [h] <;> rfl

theorem State.pollStatus_of_some {s : State} {b : Byte} (h : s.consolePoll.1 = some b) :
    s.pollStatus = (s.consolePoll.2.setCell kbsrAddr 0x8000#16).setCell kbdrAddr (zext16 b) := by
  unfold State.pollStatus
  rw [← Prod.mk.eta (p := s.consolePoll), h]

theorem State.pollStatus_of_none {s : State} (h : s.consolePoll.1 = none) :
    s.pollStatus = s.consolePoll.2.setCell kbsrAddr 0x0000#16 := by
  unfold State.pollStatus
  rw [← Prod.mk.eta (p := s.consolePoll), h]

/-- What a poll with a byte leaves in the two device cells (20_memory.md R33, R34). -/
theorem State.pollStatus_cells_of_some {s : State} {b : Byte} (h : s.consolePoll.1 = some b) :
    s.pollStatus.cell kbsrAddr = 0x8000#16 ∧ s.pollStatus.cell kbdrAddr = zext16 b := by
  rw [State.pollStatus_of_some h]
  refine ⟨?_, State.cell_setCell_same _ _ _⟩
  rw [State.cell_setCell_ne _ _ kbsrAddr_ne_kbdrAddr, State.cell_setCell_same]

/-- What a poll without a byte leaves in the two device cells (20_memory.md R33). -/
theorem State.pollStatus_cells_of_none {s : State} (h : s.consolePoll.1 = none) :
    s.pollStatus.cell kbsrAddr = 0x0000#16 ∧ s.pollStatus.cell kbdrAddr = s.cell kbdrAddr := by
  rw [State.pollStatus_of_none h]
  refine ⟨State.cell_setCell_same _ _ _, ?_⟩
  rw [State.cell_setCell_ne _ _ kbsrAddr_ne_kbdrAddr.symm]
  exact State.cell_congr s.consolePoll_mem kbdrAddr

/-- Latching the answer leaves the input as the poll has left it. -/
theorem State.pollStatus_sameInput (s : State) : SameInput s.consolePoll.2 s.pollStatus := by
  cases h : s.consolePoll.1 with
  | none => rw [State.pollStatus_of_none h]; exact ⟨rfl, rfl, rfl, rfl, rfl⟩
  | some b => rw [State.pollStatus_of_some h]; exact ⟨rfl, rfl, rfl, rfl, rfl⟩

/-- Settles O9: the cells and the input of a poll, in the two cases of its answer, and the frame of a read. -/
theorem statusReadPollsAndLatchesTheAnswer : Obligations.StatusReadPollsAndLatchesTheAnswer := by
  unfold Obligations.StatusReadPollsAndLatchesTheAnswer
  refine ⟨rfl, rfl, fun s => ⟨fun b hb => ?_, fun hb => ?_, fun a => s.cell_afterRead kbsrAddr a, ?_,
    s.reg_afterRead kbsrAddr, s.afterRead_pc _, s.afterRead_cond _,
    ⟨s.afterRead_run _, s.afterRead_faultCause _, s.afterRead_faultInstr _, s.afterRead_instr _⟩,
    ⟨s.afterRead_inPrompt _, s.afterRead_consoleEof _⟩, s.afterRead_conOut _⟩⟩
  · obtain ⟨hstatus, hdata⟩ := State.pollStatus_cells_of_some hb
    rw [State.memRead, State.afterRead_status, BitVec.ofNat_toNat]
    exact ⟨hstatus, hstatus, hdata⟩
  · obtain ⟨hstatus, hdata⟩ := State.pollStatus_cells_of_none hb
    rw [State.memRead, State.afterRead_status]
    exact ⟨hstatus, hstatus, hdata⟩
  · rw [State.afterRead_status]
    exact s.pollStatus_sameInput

/-- Settles O10: only the status register has a read side effect. -/
theorem otherReadsAreOrdinary : Obligations.OtherReadsAreOrdinary := by
  unfold Obligations.OtherReadsAreOrdinary
  have hordinary (s : State) (a : Word) (h : a ≠ kbsrAddr) : s.memRead a = s.cell a ∧ s.afterRead a = s :=
    ⟨s.memRead_of_ne h, s.afterRead_of_ne h⟩
  exact ⟨fun s => hordinary s kbdrAddr kbsrAddr_ne_kbdrAddr.symm, hordinary⟩

/-- A write leaves everything but its own cell. -/
theorem State.memWrite_storeFrame (s : State) (a v : Word) : StoreFrame a s (s.memWrite a v) :=
  ⟨fun _ => rfl, rfl, rfl, fun _ hb => s.cell_setCell_ne v hb, ⟨rfl, rfl, rfl, rfl⟩,
    ⟨rfl, rfl, rfl, rfl, rfl⟩, rfl, rfl, rfl⟩

theorem State.cell_memWrite_same (s : State) (a v : Word) : (s.memWrite a v).cell a = v := s.cell_setCell_same a v

theorem State.cell_memWrite (s : State) (a v b : Word) :
    (s.memWrite a v).cell b = if b = a then v else s.cell b := by
  split
  · subst b; exact s.cell_memWrite_same a v
  · exact s.cell_setCell_ne v ‹_›

/-- Settles O12: the cell of the write, and its frame. -/
theorem writeStoresOneWordAndNothingElse : Obligations.WriteStoresOneWordAndNothingElse := by
  unfold Obligations.WriteStoresOneWordAndNothingElse
  exact fun s a v => ⟨s.cell_memWrite_same a v, rfl, s.memWrite_storeFrame a v⟩

/-- What a poll answers does not depend on memory. -/
theorem State.consolePoll_fst_memWrite (s : State) (a v : Word) :
    (s.memWrite a v).consolePoll.1 = s.consolePoll.1 := by
  rw [State.consolePoll_fst, State.consolePoll_fst]
  rfl

/-- Settles O13: an ordinary read returns the cell, and a read of the status register what its poll answers. -/
theorem readReturnsTheLatestWrite : Obligations.ReadReturnsTheLatestWrite := by
  unfold Obligations.ReadReturnsTheLatestWrite
  refine fun s a v b => ⟨fun hb => ?_, ?_⟩
  · rw [State.memRead_of_ne _ hb, State.memRead_of_ne _ hb, State.cell_memWrite]
  · rw [State.memRead_status, State.memRead_status, State.consolePoll_fst_memWrite]

end Sys2Proof.Machine
end

section
/-! PROOF. Memory over an instruction (20_memory.md R41, R45): the cells it leaves alone, and a store over the next
instruction. -/

namespace Sys2Proof.Machine

/-- Of the effects of an instruction only its store changes its address and only its reads change the device cells. -/
theorem cell_keptByEffects {i : Instr} {s : State} {a : Word} (hstore : storesAt s i ≠ some a)
    (hread : readsMemory i = false ∨ (a ≠ kbsrAddr ∧ a ≠ kbdrAddr)) (v : Word) : KeptByEffects i s (·.cell a = v) where
  setReg _ _ _ _ h := h
  setCC _ _ _ h := h
  setPc _ _ _ h := h
  read hr u b h := by
    rcases hread with hr' | ⟨hs, hd⟩
    · rw [hr] at hr'; cases hr'
    · exact (u.cell_afterRead b a hs hd).trans h
  store b hb u w h := (u.cell_setCell_ne w fun e => hstore (hb.trans (congrArg some e.symm))).trans h
  take _ _ _ _ _ h := h
  append _ _ _ h := h

/-- Settles O26: neither HALT nor a decode fault touches memory, nor does any effect of another instruction but its store
and the polls of its reads. -/
theorem onlyStoresAndPollsChangeMemory : Obligations.OnlyStoresAndPollsChangeMemory := by
  unfold Obligations.OnlyStoresAndPollsChangeMemory
  intro i s t h a hstore hread
  rcases exec_cases h with ⟨-, rfl⟩ | ⟨c, -, rfl⟩ | hkept
  · rfl
  · rfl
  · exact hkept (·.cell a = s.cell a) (cell_keptByEffects hstore hread _) rfl

/-- ST, STI and STR end by writing `x[sr]` at the address they store to, in a state that their reads have left with the
same run state and `pc`. -/
theorem exec_store {i : Instr} {sr : Reg} {s : State} {a : Word}
    (hi : (∃ off, i = .st sr off) ∨ (∃ off, i = .sti sr off) ∨ ∃ base off, i = .str sr base off)
    (ha : storesAt s i = some a) :
    ∃ u : State, u.run = s.run ∧ u.pc = s.pc ∧ exec i s = .next (u.memWrite a (s.reg sr)) := by
  rcases hi with ⟨off, rfl⟩ | ⟨off, rfl⟩ | ⟨base, off, rfl⟩ <;> cases ha
  · exact ⟨s, rfl, rfl, rfl⟩
  · exact ⟨s.afterPointer off, s.afterRead_run _, s.afterRead_pc _, rfl⟩
  · exact ⟨s, rfl, rfl, rfl⟩

/-- In RUNNING a step away from the status register runs the word in the cell at `pc`. -/
theorem step_of_cell {s : State} {w : Word} (hrun : s.run = .running) (hpc : s.pc ≠ kbsrAddr)
    (hw : s.cell s.pc = w) :
    step s = exec (decode w) { s with instr := w, pc := BitVec.ofNat 16 (s.pc.toNat + 1) } := by
  rw [step_of_running hrun, s.fetch_of_ne hpc, hw, word_add_one]

/-- Settles O31: the first step writes the word in the cell at the next `pc`, and the second reads it there. -/
theorem storeIsSeenByTheNextFetch : Obligations.StoreIsSeenByTheNextFetch := by
  unfold Obligations.StoreIsSeenByTheNextFetch
  intro s i sr hrun hdecode hi ha hpc
  obtain ⟨u, hurun, hupc, hexec⟩ := exec_store hi ha
  rw [State.reg_fetch] at hexec
  refine ⟨u.memWrite s.fetch.pc (s.reg sr), ?_, ?_⟩
  · rw [step_of_running hrun, State.fetch_instr, hdecode, hexec]
  · refine step_of_cell (hurun.trans (s.fetch_run.trans hrun)) (fun e => hpc (hupc.symm.trans e)) ?_
    change (u.memWrite s.fetch.pc (s.reg sr)).cell u.pc = s.reg sr
    rw [hupc, State.cell_memWrite_same]

end Sys2Proof.Machine
end

section
/-! PROOF. What the decoder reads from a word (30_encoding.md R51, R60): one equation per opcode, the trap table as a case
principle, and that every decoded instruction is well-formed and of the opcode of its word. -/

namespace Sys2Proof

/-- Every word carries the number of an opcode (R51). -/
theorem exists_opcode (w : Word) : ∃ o : Opcode, w.extractLsb' 12 4 = o.number :=
  ⟨opcodeOf w, (number_opcodeMap _).symm⟩

section Equations

variable {w : Word}

theorem decode_br (h : w.extractLsb' 12 4 = Opcode.br.number) : decode w = .br (fieldHigh w) (fieldOff9 w) := by
  rw [decode, opcodeOf_eq w _ h]

theorem decode_add (h : w.extractLsb' 12 4 = Opcode.add.number) : decode w =
    if immFlag w then .addImm (fieldHigh w) (fieldMid w) (fieldImm5 w)
    else .addReg (fieldHigh w) (fieldMid w) (fieldLow w) := by
  rw [decode, opcodeOf_eq w _ h]

theorem decode_ld (h : w.extractLsb' 12 4 = Opcode.ld.number) : decode w = .ld (fieldHigh w) (fieldOff9 w) := by
  rw [decode, opcodeOf_eq w _ h]

theorem decode_st (h : w.extractLsb' 12 4 = Opcode.st.number) : decode w = .st (fieldHigh w) (fieldOff9 w) := by
  rw [decode, opcodeOf_eq w _ h]

theorem decode_jsr (h : w.extractLsb' 12 4 = Opcode.jsr.number) : decode w =
    if longFlag w then .jsr (fieldOff11 w) else .jsrr (fieldMid w) := by
  rw [decode, opcodeOf_eq w _ h]

theorem decode_and (h : w.extractLsb' 12 4 = Opcode.and.number) : decode w =
    if immFlag w then .andImm (fieldHigh w) (fieldMid w) (fieldImm5 w)
    else .andReg (fieldHigh w) (fieldMid w) (fieldLow w) := by
  rw [decode, opcodeOf_eq w _ h]

theorem decode_ldr (h : w.extractLsb' 12 4 = Opcode.ldr.number) :
    decode w = .ldr (fieldHigh w) (fieldMid w) (fieldOff6 w) := by
  rw [decode, opcodeOf_eq w _ h]

theorem decode_str (h : w.extractLsb' 12 4 = Opcode.str.number) :
    decode w = .str (fieldHigh w) (fieldMid w) (fieldOff6 w) := by
  rw [decode, opcodeOf_eq w _ h]

theorem decode_rti (h : w.extractLsb' 12 4 = Opcode.rti.number) : decode w = .rti := by
  rw [decode, opcodeOf_eq w _ h]

theorem decode_not (h : w.extractLsb' 12 4 = Opcode.not.number) : decode w = .notReg (fieldHigh w) (fieldMid w) := by
  rw [decode, opcodeOf_eq w _ h]

theorem decode_ldi (h : w.extractLsb' 12 4 = Opcode.ldi.number) : decode w = .ldi (fieldHigh w) (fieldOff9 w) := by
  rw [decode, opcodeOf_eq w _ h]

theorem decode_sti (h : w.extractLsb' 12 4 = Opcode.sti.number) : decode w = .sti (fieldHigh w) (fieldOff9 w) := by
  rw [decode, opcodeOf_eq w _ h]

theorem decode_jmp (h : w.extractLsb' 12 4 = Opcode.jmp.number) : decode w = .jmp (fieldMid w) := by
  rw [decode, opcodeOf_eq w _ h]

theorem decode_res (h : w.extractLsb' 12 4 = Opcode.res.number) : decode w = .res := by
  rw [decode, opcodeOf_eq w _ h]

theorem decode_lea (h : w.extractLsb' 12 4 = Opcode.lea.number) : decode w = .lea (fieldHigh w) (fieldOff9 w) := by
  rw [decode, opcodeOf_eq w _ h]

theorem decode_trap (h : w.extractLsb' 12 4 = Opcode.trap.number) : decode w = decodeTrap (fieldVec8 w) := by
  rw [decode, opcodeOf_eq w _ h]

end Equations

/-! ### The trap table -/

/-- The vectors below 0x20 and above 0x25 are those that are none of the six (45_trap.md R120, R127). -/
theorem undefinedVector_eq_true_iff (v : BitVec 8) : undefinedVector v = true ↔
    v ≠ 0x20#8 ∧ v ≠ 0x21#8 ∧ v ≠ 0x22#8 ∧ v ≠ 0x23#8 ∧ v ≠ 0x24#8 ∧ v ≠ 0x25#8 := by
  simp only [undefinedVector, Bool.or_eq_true, decide_eq_true_eq, ne_eq, ← BitVec.toNat_inj, BitVec.toNat_ofNat]
  omega

/-- A vector with no routine decodes to the general row. -/
theorem decodeTrap_of_undefined {v : BitVec 8} (h : undefinedVector v = true) : decodeTrap v = .trap v := by
  obtain ⟨h0, h1, h2, h3, h4, h5⟩ := (undefinedVector_eq_true_iff v).1 h
  rw [decodeTrap, if_neg h0, if_neg h1, if_neg h2, if_neg h3, if_neg h4, if_neg h5]

/-- What holds of the six routines at their vectors, and of the general row at every other vector, holds of what every
vector decodes to. -/
theorem decodeTrap_induction {P : BitVec 8 → Instr → Prop} (getc : P 0x20#8 .trapGetc) (out : P 0x21#8 .trapOut)
    (puts : P 0x22#8 .trapPuts) (inp : P 0x23#8 .trapIn) (putsp : P 0x24#8 .trapPutsp) (halt : P 0x25#8 .trapHalt)
    (other : ∀ v, undefinedVector v = true → P v (.trap v)) (v : BitVec 8) : P v (decodeTrap v) := by
  by_cases h : undefinedVector v = true
  · rw [decodeTrap_of_undefined h]
    exact other v h
  · simp only [undefinedVector_eq_true_iff, not_and_or, not_not] at h
    rcases h with rfl | rfl | rfl | rfl | rfl | rfl <;> assumption

theorem decodeTrap_wf (v : BitVec 8) : (decodeTrap v).wf = true :=
  decodeTrap_induction (P := fun _ i => i.wf = true) rfl rfl rfl rfl rfl rfl (fun _ h => h) v

theorem opcode_decodeTrap (v : BitVec 8) : (decodeTrap v).opcode = .trap :=
  decodeTrap_induction (P := fun _ i => i.opcode = .trap) rfl rfl rfl rfl rfl rfl (fun _ _ => rfl) v

theorem encode_decodeTrap (v : BitVec 8) : encode (decodeTrap v) = layoutVec .trap v :=
  decodeTrap_induction (P := fun v i => encode i = layoutVec .trap v) rfl rfl rfl rfl rfl rfl (fun _ _ => rfl) v

/-- Different vectors decode differently. -/
theorem decodeTrap_inj {u v : BitVec 8} : decodeTrap u = decodeTrap v ↔ u = v := by
  refine ⟨fun h => ?_, congrArg decodeTrap⟩
  rw [← layoutVec_low .trap u, ← layoutVec_low .trap v, ← encode_decodeTrap, ← encode_decodeTrap, h]

/-! ### What every word decodes to -/

/-- The instruction a word decodes to is of the opcode in its top four bits. -/
theorem opcode_decode (w : Word) : (decode w).opcode = opcodeOf w := by
  unfold decode
  cases opcodeOf w
  case add | and => cases immFlag w <;> rfl
  case jsr => cases longFlag w <;> rfl
  case trap => exact opcode_decodeTrap _
  all_goals rfl

/-- Only the general TRAP row has a check, and the trap table answers it for an undefined vector alone. -/
theorem decode_wf (w : Word) : (decode w).wf = true := by
  unfold decode
  cases opcodeOf w
  case add | and => cases immFlag w <;> rfl
  case jsr => cases longFlag w <;> rfl
  case trap => exact decodeTrap_wf _
  all_goals rfl

/-- Settles O1: each of the fifteen words is decoded. -/
theorem wordsOfTheManualDecode : Obligations.WordsOfTheManualDecode := by
  unfold Obligations.WordsOfTheManualDecode
  decide

/-- Settles O2, by the equation of each opcode; the vectors of the trap table are compared as numbers. -/
theorem decodeReadsEveryFieldAtItsPlace : Obligations.DecodeReadsEveryFieldAtItsPlace := by
  unfold Obligations.DecodeReadsEveryFieldAtItsPlace
  refine fun w => ⟨decode_br, decode_add, decode_ld, decode_st, decode_jsr, decode_and, decode_ldr, decode_str, decode_rti,
    decode_not, decode_ldi, decode_sti, decode_jmp, decode_res, decode_lea, fun h => ?_⟩
  rw [decode_trap h, decodeTrap, fieldVec8]
  simp only [← BitVec.toNat_inj, BitVec.toNat_ofNat]

end Sys2Proof
end

section
/-! PROOF. The decoder gives back every encoded instruction (30_encoding.md R60): what each layout writes, the accessors of
the decoder read. -/

namespace Sys2Proof

section Layouts

variable (o : Opcode) (a b : BitVec 3)

@[simp] theorem opcodeOf_layoutRegs (c : BitVec 6) : opcodeOf (layoutRegs o a b c) = o :=
  opcodeOf_eq _ _ (layoutRegs_top o a b c)

@[simp] theorem fieldHigh_layoutRegs (c : BitVec 6) : fieldHigh (layoutRegs o a b c) = a := layoutRegs_high o a b c

@[simp] theorem fieldMid_layoutRegs (c : BitVec 6) : fieldMid (layoutRegs o a b c) = b := layoutRegs_mid o a b c

@[simp] theorem fieldOff6_layoutRegs (c : BitVec 6) : fieldOff6 (layoutRegs o a b c) = c :=
  (layoutRegs_low o a b c 6 (by decide)).trans BitVec.extractLsb'_eq_self

/-- In register mode the low six bits are the flag 0, two ignored bits and SR2. -/
@[simp] theorem immFlag_layoutRegs_reg (r : Reg) : immFlag (layoutRegs o a b (0#3 ++ r : BitVec (3 + 3))) = false := by
  rw [immFlag, layoutRegs_bit _ _ _ _ _ (by decide), BitVec.getLsbD_append]
  rfl

@[simp] theorem fieldLow_layoutRegs_reg (r : Reg) : fieldLow (layoutRegs o a b (0#3 ++ r : BitVec (3 + 3))) = r := by
  rw [fieldLow, layoutRegs_low _ _ _ _ _ (by decide), BitVec.extractLsb'_append_eq_of_add_le (by decide)]
  exact BitVec.extractLsb'_eq_self

/-- In immediate mode the low six bits are the flag 1 and the immediate. -/
@[simp] theorem immFlag_layoutRegs_imm (imm : BitVec 5) :
    immFlag (layoutRegs o a b (1#1 ++ imm : BitVec (1 + 5))) = true := by
  rw [immFlag, layoutRegs_bit _ _ _ _ _ (by decide), BitVec.getLsbD_append]
  rfl

@[simp] theorem fieldImm5_layoutRegs_imm (imm : BitVec 5) :
    fieldImm5 (layoutRegs o a b (1#1 ++ imm : BitVec (1 + 5))) = imm := by
  rw [fieldImm5, layoutRegs_low _ _ _ _ _ (by decide), BitVec.extractLsb'_append_eq_of_add_le (by decide)]
  exact BitVec.extractLsb'_eq_self

@[simp] theorem longFlag_layoutRegs_zero (c : BitVec 6) : longFlag (layoutRegs o 0#3 b c) = false :=
  layoutRegs_flag o 0#3 b c

@[simp] theorem opcodeOf_layoutOff9 (c : BitVec 9) : opcodeOf (layoutOff9 o a c) = o :=
  opcodeOf_eq _ _ (layoutOff9_top o a c)

@[simp] theorem fieldHigh_layoutOff9 (c : BitVec 9) : fieldHigh (layoutOff9 o a c) = a := layoutOff9_high o a c

@[simp] theorem fieldOff9_layoutOff9 (c : BitVec 9) : fieldOff9 (layoutOff9 o a c) = c := layoutOff9_low o a c

@[simp] theorem opcodeOf_layoutJump (f : BitVec 1) (c : BitVec 11) : opcodeOf (layoutJump o f c) = o :=
  opcodeOf_eq _ _ (layoutJump_top o f c)

@[simp] theorem longFlag_layoutJump_one (c : BitVec 11) : longFlag (layoutJump o 1#1 c) = true := layoutJump_flag o 1#1 c

@[simp] theorem fieldOff11_layoutJump (f : BitVec 1) (c : BitVec 11) : fieldOff11 (layoutJump o f c) = c :=
  layoutJump_low o f c

@[simp] theorem opcodeOf_layoutVec (v : BitVec 8) : opcodeOf (layoutVec o v) = o := opcodeOf_eq _ _ (layoutVec_top o v)

@[simp] theorem fieldVec8_layoutVec (v : BitVec 8) : fieldVec8 (layoutVec o v) = v := layoutVec_low o v

end Layouts

/-- The decoder takes the arm of the opcode that the encoder wrote, and there each accessor reads the field that the
layout wrote; the general TRAP row comes back because its vector has no row of its own. -/
theorem decode_encode {i : Instr} (h : i.wf = true) : decode (encode i) = i := by
  cases i with
  | trap v => simp [encode, decode, decodeTrap_of_undefined h]
  | _ => simp [encode, decode, decodeTrap]

/-- Settles O4, by the round trip of every form and the check of every decoded word. -/
theorem decodeInvertsEncode : Obligations.DecodeInvertsEncode := by
  unfold Obligations.DecodeInvertsEncode
  exact ⟨fun _ => decode_encode, decode_wf⟩

end Sys2Proof
end

section
/-! PROOF. The part of a word that a mask selects, by the fields the mask is made of. -/

namespace Sys2Proof

/-- The mask of the field of `len` bits from bit `start`. -/
def fieldMask (start len : Nat) : Word := (BitVec.allOnes len).setWidth 16 <<< start

theorem getLsbD_fieldMask (start len j : Nat) :
    (fieldMask start len).getLsbD j = decide (j < 16 ∧ start ≤ j ∧ j - start < len) := by
  rw [fieldMask, BitVec.getLsbD_shiftLeft, BitVec.getLsbD_setWidth, BitVec.getLsbD_allOnes]
  grind

/-- Two words agree under a mask exactly when they agree in each bit of it. -/
theorem and_eq_and_iff_getLsbD {v w m : Word} :
    v &&& m = w &&& m ↔ ∀ j, m.getLsbD j = true → v.getLsbD j = w.getLsbD j := by
  refine ⟨fun h j hj => ?_, fun h => BitVec.eq_of_getLsbD_eq fun j _ => ?_⟩
  · simpa [hj] using congrArg (·.getLsbD j) h
  · rw [BitVec.getLsbD_and, BitVec.getLsbD_and]
    cases hj : m.getLsbD j
    · simp
    · rw [h j hj]

@[simp] theorem and_or_eq_iff {v w m n : Word} :
    v &&& (m ||| n) = w &&& (m ||| n) ↔ v &&& m = w &&& m ∧ v &&& n = w &&& n := by
  simp only [and_eq_and_iff_getLsbD, BitVec.getLsbD_or, Bool.or_eq_true, or_imp, forall_and]

/-- Two words agree under the mask of a field exactly when they agree in the field. -/
@[simp] theorem and_fieldMask_eq_iff {v w : Word} {start len : Nat} :
    v &&& fieldMask start len = w &&& fieldMask start len ↔ v.extractLsb' start len = w.extractLsb' start len := by
  rw [and_eq_and_iff_getLsbD, BitVec.eq_of_getLsbD_eq_iff]
  simp only [getLsbD_fieldMask, BitVec.getLsbD_extractLsb', decide_eq_true_eq]
  constructor
  · intro h k hk
    by_cases hlt : start + k < 16
    · rw [h (start + k) ⟨hlt, by omega, by omega⟩]
    · rw [BitVec.getLsbD_of_ge v _ (by omega), BitVec.getLsbD_of_ge w _ (by omega)]
  · rintro h j ⟨-, hj, hlen⟩
    simpa [hlen, Nat.add_sub_cancel' hj] using h (j - start) hlen

/-- A field of one bit is that bit. -/
@[simp] theorem extractLsb'_one_eq_iff {v w : Word} {i : Nat} :
    v.extractLsb' i 1 = w.extractLsb' i 1 ↔ v.getLsbD i = w.getLsbD i := by
  simp [BitVec.eq_of_getLsbD_eq_iff]

end Sys2Proof
end

section
/-! PROOF. The ignored bits (30_encoding.md R61, D12): the used bits of a word are its opcode and the operand fields of the
instruction it decodes to, and words of one opcode decode alike exactly when they agree in those fields. -/

namespace Sys2Proof

/-- The bits below the opcode that an instruction form reads: its operands, and the flag or the vector that selects it. -/
def Instr.operandMask : Instr → Word
  | .br _ _ => fieldMask 9 3 ||| fieldMask 0 9
  | .addReg _ _ _ => fieldMask 9 3 ||| fieldMask 6 3 ||| fieldMask 5 1 ||| fieldMask 0 3
  | .addImm _ _ _ => fieldMask 9 3 ||| fieldMask 6 3 ||| fieldMask 5 1 ||| fieldMask 0 5
  | .ld _ _ => fieldMask 9 3 ||| fieldMask 0 9
  | .st _ _ => fieldMask 9 3 ||| fieldMask 0 9
  | .jsr _ => fieldMask 11 1 ||| fieldMask 0 11
  | .jsrr _ => fieldMask 11 1 ||| fieldMask 6 3
  | .andReg _ _ _ => fieldMask 9 3 ||| fieldMask 6 3 ||| fieldMask 5 1 ||| fieldMask 0 3
  | .andImm _ _ _ => fieldMask 9 3 ||| fieldMask 6 3 ||| fieldMask 5 1 ||| fieldMask 0 5
  | .ldr _ _ _ => fieldMask 9 3 ||| fieldMask 6 3 ||| fieldMask 0 6
  | .str _ _ _ => fieldMask 9 3 ||| fieldMask 6 3 ||| fieldMask 0 6
  | .rti => 0x0000#16
  | .notReg _ _ => fieldMask 9 3 ||| fieldMask 6 3
  | .ldi _ _ => fieldMask 9 3 ||| fieldMask 0 9
  | .sti _ _ => fieldMask 9 3 ||| fieldMask 0 9
  | .jmp _ => fieldMask 6 3
  | .res => 0x0000#16
  | .lea _ _ => fieldMask 9 3 ||| fieldMask 0 9
  | .trapGetc => fieldMask 0 8
  | .trapOut => fieldMask 0 8
  | .trapPuts => fieldMask 0 8
  | .trapIn => fieldMask 0 8
  | .trapPutsp => fieldMask 0 8
  | .trapHalt => fieldMask 0 8
  | .trap _ => fieldMask 0 8

/-- Every row of the trap table reads the vector. -/
theorem operandMask_decodeTrap (v : BitVec 8) : (decodeTrap v).operandMask = fieldMask 0 8 :=
  decodeTrap_induction (P := fun _ i => i.operandMask = fieldMask 0 8) rfl rfl rfl rfl rfl rfl (fun _ _ => rfl) v

open Machine

/-- The used bits are the opcode and the operands of the decoded form. -/
theorem usedBits_eq (w : Word) : usedBits w = fieldMask 12 4 ||| (decode w).operandMask := by
  obtain ⟨o, h⟩ := exists_opcode w
  cases o
  case add | and =>
    cases hf : w[5] <;>
      simp [usedBits, h, decode, opcodeOf_eq w _ h, immFlag, hf, Opcode.number, Instr.operandMask, fieldMask]
  case jsr =>
    cases hf : w[11] <;> simp [usedBits, h, decode_jsr h, longFlag, hf, Opcode.number, Instr.operandMask, fieldMask]
  case trap => simp [usedBits, h, decode_trap h, operandMask_decodeTrap, Opcode.number, fieldMask]
  all_goals simp [usedBits, h, decode, opcodeOf_eq w _ h, Opcode.number, Instr.operandMask, fieldMask]

/-- Words that decode alike have the same top four bits. -/
theorem top_eq_of_decode_eq {v w : Word} (h : decode v = decode w) : v.extractLsb' 12 4 = w.extractLsb' 12 4 := by
  have hop : opcodeOf v = opcodeOf w := by rw [← opcode_decode, ← opcode_decode, h]
  calc v.extractLsb' 12 4 = (opcodeOf v).number := (number_opcodeMap _).symm
    _ = (opcodeOf w).number := by rw [hop]
    _ = w.extractLsb' 12 4 := number_opcodeMap _

/-- Two words of one opcode decode alike exactly when they agree in the operands of the second. -/
theorem decode_eq_iff_operands {v w : Word} (h : v.extractLsb' 12 4 = w.extractLsb' 12 4) :
    decode v = decode w ↔ v &&& (decode w).operandMask = w &&& (decode w).operandMask := by
  obtain ⟨o, hw⟩ := exists_opcode w
  have hv := h.trans hw
  cases o
  case add | and =>
    cases hvf : immFlag v <;> cases hwf : immFlag w <;>
      simp_all [decode, opcodeOf_eq v _ hv, opcodeOf_eq w _ hw, Instr.operandMask, and_assoc, fieldHigh, fieldMid, fieldLow,
        fieldImm5, immFlag]
  case jsr =>
    cases hvf : longFlag v <;> cases hwf : longFlag w <;>
      simp_all [decode_jsr hv, decode_jsr hw, Instr.operandMask, fieldMid, fieldOff11, longFlag]
  case trap =>
    rw [decode_trap hv, decode_trap hw, decodeTrap_inj, operandMask_decodeTrap, and_fieldMask_eq_iff]
    rfl
  all_goals
    simp [decode, opcodeOf_eq v _ hv, opcodeOf_eq w _ hw, Instr.operandMask, and_assoc, fieldHigh, fieldMid, fieldOff6,
      fieldOff9]

/-- Settles O5: agreeing on the used bits is agreeing in the opcode and in the operands. -/
theorem unusedBitsAreExactlyTheIgnoredOnes : Obligations.UnusedBitsAreExactlyTheIgnoredOnes := by
  unfold Obligations.UnusedBitsAreExactlyTheIgnoredOnes
  intro v w
  rw [usedBits_eq, and_or_eq_iff, and_fieldMask_eq_iff]
  refine ⟨fun h => ?_, fun ⟨htop, hops⟩ => (decode_eq_iff_operands htop).2 hops⟩
  have htop := top_eq_of_decode_eq h
  exact ⟨htop, (decode_eq_iff_operands htop).1 h⟩

end Sys2Proof
end

section
/-! PROOF. The opcode table (spec/opcode_table.json, 30_encoding.md R64): every word matches the row of the instruction it
decodes to, and no row before that one, since two rows of the table match no word in common unless the second is the
fallback of the trap rows. -/

namespace Sys2Proof.Machine

section Rows

variable {w p : Word}

theorem and_F000_eq_iff (hp : p &&& 0xF000#16 = p) :
    w &&& 0xF000#16 = p ↔ w.extractLsb' 12 4 = p.extractLsb' 12 4 := by
  rw [← and_fieldMask_eq_iff, show fieldMask 12 4 = 0xF000#16 from rfl, hp]

theorem and_F020_eq_iff (hp : p &&& 0xF020#16 = p) :
    w &&& 0xF020#16 = p ↔ w.extractLsb' 12 4 = p.extractLsb' 12 4 ∧ w.getLsbD 5 = p.getLsbD 5 := by
  rw [← and_fieldMask_eq_iff, ← extractLsb'_one_eq_iff, ← and_fieldMask_eq_iff, ← and_or_eq_iff,
    show fieldMask 12 4 ||| fieldMask 5 1 = 0xF020#16 from rfl, hp]

theorem and_F800_eq_iff (hp : p &&& 0xF800#16 = p) :
    w &&& 0xF800#16 = p ↔ w.extractLsb' 12 4 = p.extractLsb' 12 4 ∧ w.getLsbD 11 = p.getLsbD 11 := by
  rw [← and_fieldMask_eq_iff, ← extractLsb'_one_eq_iff, ← and_fieldMask_eq_iff, ← and_or_eq_iff,
    show fieldMask 12 4 ||| fieldMask 11 1 = 0xF800#16 from rfl, hp]

theorem and_F0FF_eq_iff (hp : p &&& 0xF0FF#16 = p) :
    w &&& 0xF0FF#16 = p ↔ w.extractLsb' 12 4 = p.extractLsb' 12 4 ∧ w.extractLsb' 0 8 = p.extractLsb' 0 8 := by
  rw [← and_fieldMask_eq_iff, ← and_fieldMask_eq_iff, ← and_or_eq_iff,
    show fieldMask 12 4 ||| fieldMask 0 8 = 0xF0FF#16 from rfl, hp]

end Rows

/-- The row `r` of the table selects the word `w` (R64). -/
def TableRow.Matches (r : TableRow) (w : Word) : Prop := w &&& r.mask = r.pattern

/-- Each routine has a row for its vector, and the general TRAP has the fallback. -/
theorem exists_trapRow {w : Word} (h : w.extractLsb' 12 4 = Opcode.trap.number) :
    ∃ r, opcodeRows[rowOf (decodeTrap (fieldVec8 w))]? = some r ∧ r.Matches w := by
  refine decodeTrap_induction (P := fun v i => fieldVec8 w = v → ∃ r, opcodeRows[rowOf i]? = some r ∧ r.Matches w)
    ?_ ?_ ?_ ?_ ?_ ?_ (fun v _ _ => ⟨_, rfl, (and_F000_eq_iff rfl).2 h⟩) _ rfl <;>
  exact fun hv => ⟨_, rfl, (and_F0FF_eq_iff rfl).2 ⟨h, hv⟩⟩

/-- Every word matches the row of the instruction it decodes to. -/
theorem exists_row_decode (w : Word) : ∃ r, opcodeRows[rowOf (decode w)]? = some r ∧ r.Matches w := by
  obtain ⟨o, h⟩ := exists_opcode w
  cases o
  case add | and =>
    unfold decode
    rw [opcodeOf_eq w _ h]
    cases hf : immFlag w <;> exact ⟨_, rfl, (and_F020_eq_iff rfl).2 ⟨h, hf⟩⟩
  case jsr =>
    rw [decode_jsr h]
    cases hf : longFlag w <;> exact ⟨_, rfl, (and_F800_eq_iff rfl).2 ⟨h, hf⟩⟩
  case trap =>
    rw [decode_trap h]
    exact exists_trapRow h
  all_goals
    rw [decode, opcodeOf_eq w _ h]
    exact ⟨_, rfl, (and_F000_eq_iff rfl).2 h⟩

/-- Two rows that match one word agree in the bits that both their masks select. -/
theorem TableRow.Matches.compatible {r r' : TableRow} {w : Word} (h : r.Matches w) (h' : r'.Matches w) :
    r.pattern &&& r'.mask = r'.pattern &&& r.mask := by
  rw [← h, ← h', BitVec.and_assoc, BitVec.and_assoc, BitVec.and_comm r.mask]

/-- Of two rows the patterns differ in a bit that both masks select, unless the second is the fallback of the first. -/
theorem fallback_of_compatible_rows : ∀ j k : Fin 25, j < k →
    opcodeRows[j].pattern &&& opcodeRows[k].mask = opcodeRows[k].pattern &&& opcodeRows[j].mask →
    18 ≤ j.val ∧ k.val = 24 := by
  decide

/-- The rows of the six routines select exactly the used bits of their pattern. -/
theorem routineRow_pattern : ∀ j : Fin 25, 18 ≤ j.val → j.val < 24 →
    usedBits opcodeRows[j].pattern = opcodeRows[j].mask ∧ rowOf (decode opcodeRows[j].pattern) = j.val := by
  decide

/-- A word that matches the row of a routine decodes to that routine, as the pattern of the row does. -/
theorem rowOf_decode_of_matches_routine {j : Fin 25} (hlow : 18 ≤ j.val) (hhigh : j.val < 24) {w : Word}
    (h : opcodeRows[j].Matches w) : rowOf (decode w) = j.val := by
  obtain ⟨hused, hrow⟩ := routineRow_pattern j hlow hhigh
  have hdecode : decode w = decode opcodeRows[j].pattern := by
    rw [unusedBitsAreExactlyTheIgnoredOnes, hused, ← h, BitVec.and_assoc, BitVec.and_self]
  rw [hdecode, hrow]

/-- Settles O3: a row before that of the decoded instruction that matched too would be the row of a routine, before the
fallback, and then the word would decode to that routine. -/
theorem firstMatchingTableRowIsTheDecodedOne : Obligations.FirstMatchingTableRowIsTheDecodedOne := by
  unfold Obligations.FirstMatchingTableRowIsTheDecodedOne
  intro w
  obtain ⟨r, hr, hmatch⟩ := exists_row_decode w
  obtain ⟨hlt, rfl⟩ := List.getElem?_eq_some_iff.1 hr
  refine List.findIdx?_eq_some_iff_getElem.2 ⟨hlt, decide_eq_true hmatch, fun j hj htest => ?_⟩
  have hearlier : opcodeRows[j].Matches w := by simpa [TableRow.Matches] using htest
  obtain ⟨hlow, hfallback⟩ := fallback_of_compatible_rows ⟨j, hj.trans hlt⟩ ⟨_, hlt⟩ hj (hearlier.compatible hmatch)
  have hhigh : j < 24 := hfallback ▸ hj
  exact hj.ne (rowOf_decode_of_matches_routine (j := ⟨j, hj.trans hlt⟩) hlow hhigh hearlier).symm

end Sys2Proof.Machine
end

section
/-! PROOF. What a step is in each run state (40_fetch_execute.md R70, R71, R76), and what a fetch at the status register
executes (R78). -/

namespace Sys2Proof.Machine

theorem step_of_halted {s : State} (h : s.run = .halted) : step s = .fault .halted := by
  simp only [step, h]

theorem step_of_faulted {s : State} (h : s.run = .faulted) : step s = .fault .faulted := by
  simp only [step, h]

/-- Settles O16, by the equations of a step in the two run states that end a run. -/
theorem noStepOutsideRunning : Obligations.NoStepOutsideRunning := by
  unfold Obligations.NoStepOutsideRunning
  exact ⟨fun _ => step_of_halted, fun _ => step_of_faulted⟩

/-- Settles O15: the fetch reads, latches and increments, and the step runs the decoded latch. -/
theorem stepRunsTheDecodedInstruction : Obligations.StepRunsTheDecodedInstruction := by
  unfold Obligations.StepRunsTheDecodedInstruction
  intro s i hrun hdecode
  rw [step_of_running hrun, State.fetch_instr, hdecode, ← word_add_one]
  rfl

/-! ### A fetch at the status register -/

/-- Of a fetch only the poll changes memory, and it changes the device cells alone. -/
theorem State.fetch_sameCellsButDevices (s : State) : SameCellsButDevices s s.fetch :=
  fun a hs hd => s.cell_afterRead s.pc a hs hd

section AtStatus

variable {s : State} (hpc : s.pc = kbsrAddr)
include hpc

theorem State.fetch_pc_of_status : s.fetch.pc = 0xFE01#16 := by
  rw [State.fetch_pc, hpc]
  rfl

theorem State.cell_fetch_of_status (a : Word) : s.fetch.cell a = s.pollStatus.cell a := by
  refine State.cell_congr ?_ a
  rw [State.fetch_mem, hpc, State.afterRead_status]

theorem State.fetch_sameInput_of_status : SameInput s.consolePoll.2 s.fetch := by
  have hread : SameInput s.consolePoll.2 (s.afterRead s.pc) := by
    rw [hpc, State.afterRead_status]
    exact s.pollStatus_sameInput
  exact hread

/-- The word 0x8000 that a poll with a byte returns is latched, and it is RTI, which is fatal. -/
theorem step_at_status_of_some (hrun : s.run = .running) {b : Byte} (hb : s.consolePoll.1 = some b) :
    s.fetch.instr = 0x8000#16 ∧ step s = .next (s.fetch.raiseDecodeFault .unimplementedOpcode) := by
  have hinstr : s.fetch.instr = 0x8000#16 := by rw [State.fetch_instr, hpc, State.memRead_status, hb]; rfl
  refine ⟨hinstr, ?_⟩
  rw [step_of_running hrun, hinstr]
  rfl

/-- The word 0x0000 that a poll without a byte returns is the branch on no condition, which does nothing. -/
theorem step_at_status_of_none (hrun : s.run = .running) (hb : s.consolePoll.1 = none) :
    step s = .next s.fetch := by
  have hinstr : s.fetch.instr = 0x0000#16 := by rw [State.fetch_instr, hpc, State.memRead_status, hb]; rfl
  have hdecode : decode 0x0000#16 = .br 0b000#3 0#9 := by decide
  have htest : s.fetch.condTest 0b000#3 = false := by simp [State.condTest]
  rw [step_of_running hrun, hinstr, hdecode, exec, execBr, htest]
  rfl

end AtStatus

/-- Settles O17: a poll with a byte makes the step the fetch followed by the decode fault of RTI, a poll without one makes
it the fetch alone; the cells and the input are as the poll leaves them. -/
theorem fetchAtStatusRegisterExecutesThePoll : Obligations.FetchAtStatusRegisterExecutesThePoll := by
  unfold Obligations.FetchAtStatusRegisterExecutesThePoll
  intro s hrun hpc
  have hcell := State.cell_fetch_of_status hpc
  refine ⟨fun b hb => ?_, fun hb => ?_⟩
  · obtain ⟨hinstr, hstep⟩ := step_at_status_of_some hpc hrun hb
    obtain ⟨hstatus, hdata⟩ := State.pollStatus_cells_of_some hb
    exact ⟨_, hstep, rfl, rfl, congrArg some hinstr, State.fetch_pc_of_status hpc, (hcell _).trans hstatus,
      (hcell _).trans (hdata.trans (BitVec.ofNat_toNat 16 b).symm), s.fetch_sameCellsButDevices,
      State.fetch_sameInput_of_status hpc, s.reg_fetch, s.fetch_cond, s.fetch_conOut, s.fetch_inPrompt,
      s.fetch_consoleEof⟩
  · obtain ⟨hstatus, hdata⟩ := State.pollStatus_cells_of_none hb
    exact ⟨_, step_at_status_of_none hpc hrun hb, s.fetch_run.trans hrun, State.fetch_pc_of_status hpc,
      (hcell _).trans hstatus, (hcell _).trans hdata, s.fetch_sameCellsButDevices,
      State.fetch_sameInput_of_status hpc, s.reg_fetch, s.fetch_cond, s.fetch_conOut,
      ⟨s.fetch_inPrompt, s.fetch_consoleEof⟩, s.fetch_faultCause, s.fetch_faultInstr⟩

end Sys2Proof.Machine
end

section
/-! PROOF. How a run ends and how a step stops (40_fetch_execute.md R76, R77, 10_state.md R18, R19, R24): which instructions
change the run state, and which answer no next state. -/

namespace Sys2Proof.Machine

/-- An instruction with a fatal cause takes the decode fault of that cause. -/
theorem exec_of_fatalCause {i : Instr} {c : FaultCause} (s : State) (h : fatalCause i = some c) :
    exec i s = .next (s.raiseDecodeFault c) := by
  cases i with
  | res | rti | trap => cases h; rfl
  | br | addReg | addImm | ld | st | jsr | jsrr | andReg | andImm | ldr | str | notReg | ldi | sti | jmp | lea => cases h
  | trapGetc | trapOut | trapPuts | trapIn | trapPutsp | trapHalt => cases h

/-- No effect of an instruction other than HALT and the fatal ones writes the run state. -/
theorem run_keptByEffects (i : Instr) (s : State) (r : RunState) : KeptByEffects i s (·.run = r) where
  setReg _ _ _ _ h := h
  setCC _ _ _ h := h
  setPc _ _ _ h := h
  read _ u a h := (u.afterRead_run a).trans h
  store _ _ _ _ h := h
  take _ _ _ _ _ h := h
  append _ _ _ h := h

/-- The run state that an instruction leaves. -/
theorem exec_run {i : Instr} {s t : State} (h : exec i s = .next t) :
    t.run = if i = .trapHalt then .halted else if (fatalCause i).isSome then .faulted else s.run := by
  by_cases hhalt : i = .trapHalt
  · subst hhalt; cases h; rfl
  rw [if_neg hhalt]
  cases hc : fatalCause i with
  | some c => cases (exec_of_fatalCause s hc).symm.trans h; rfl
  | none =>
    rcases exec_cases h with ⟨rfl, -⟩ | ⟨c, hc', -⟩ | hkept
    · exact absurd rfl hhalt
    · cases hc.symm.trans hc'
    · exact hkept (·.run = s.run) (run_keptByEffects i s _) rfl

/-- Settles O23: the fetch keeps RUNNING, and then the run state is what the fetched instruction leaves. -/
theorem runEndsOnlyByHaltOrDecodeFault : Obligations.RunEndsOnlyByHaltOrDecodeFault := by
  unfold Obligations.RunEndsOnlyByHaltOrDecodeFault
  intro s t h
  obtain ⟨hrun, hexec⟩ := step_next h
  have htrun := exec_run hexec
  rw [State.fetch_instr, State.fetch_run, hrun] at htrun
  rw [State.EndedWell, State.EndedByFault, causeOfWord_eq_fatalCause, htrun]
  refine ⟨hrun, ?_⟩
  by_cases hhalt : decode (s.memRead s.pc) = .trapHalt
  · simp [hhalt, fatalCause]
  · cases fatalCause (decode (s.memRead s.pc)) <;> simp [hhalt]

/-! ### Stops -/

/-- A blocking read waits for ever only after the end of the stream, where `CONSOLE_EOF` is `stuck` (10_state.md R24). -/
theorem State.consoleGet_eq_none_iff (s : State) :
    s.consoleGet = none ↔ s.kbdIn = [] ∧ s.kbdEnded = true ∧ s.consoleEof = .stuck := by
  refine ⟨fun h => ?_, fun ⟨hk, he, hs⟩ => State.consoleGet_of_stuck hk he hs⟩
  rcases s.consoleGet_cases with ⟨b, t, hget, -⟩ | ⟨w, hget, -⟩ | ⟨-, hbyte, hstuck⟩
  · cases h.symm.trans hget
  · cases h.symm.trans hget
  · rcases s.nextByte_cases with ⟨-, hk, he⟩ | ⟨b, hnext, -⟩
    · exact ⟨hk, he, hstuck⟩
    · cases hbyte.symm.trans hnext

/-- The blocking read of an instruction executed in `s` waits for ever. -/
def WaitsForever (i : Instr) (s : State) : Prop :=
  blocksOnInput i ∧ s.kbdIn = [] ∧ s.kbdEnded = true ∧ s.consoleEof = .stuck

/-- The string loop of an instruction executed in `s` never ends. -/
def PrintsForever (i : Instr) (s : State) : Prop :=
  (i = .trapPuts ∧ ∀ u, ¬ PrintedString putsBytes s (s.reg trapReg) u) ∨
  (i = .trapPutsp ∧ ∀ u, ¬ PrintedString putspBytes s (s.reg trapReg) u)

/-- A string routine completes, or its loop never ends and no stream or answer of the environment ends it. -/
theorem stringResult_answers (f : Word → List Byte) (a : Word) (s : State) :
    (∃ t, stringResult (State.stringEnd f a s) = .next t) ∨
    (stringResult (State.stringEnd f a s) = .fault .stringNeverEnds ∧ (∀ u, ¬ PrintedString f s a u) ∧ s.Endless) := by
  cases h : State.stringEnd f a s with
  | some t => exact .inl ⟨_, rfl⟩
  | none =>
    obtain ⟨-, hloop, hendless⟩ := stringResult_stop (g := .stringNeverEnds) (congrArg stringResult h)
    exact .inr ⟨rfl, hloop, hendless⟩

/-- Everything the meaning of an instruction can answer: a next state, or a stop for one of two reasons. -/
theorem exec_answers (i : Instr) (s : State) :
    (∃ t, exec i s = .next t) ∨ ((∃ out, exec i s = .fault (.inputNeverComes out)) ∧ WaitsForever i s) ∨
    (exec i s = .fault .stringNeverEnds ∧ PrintsForever i s ∧ s.Endless) := by
  cases i with
  | trapGetc =>
    cases h : s.consoleGet with
    | some p => exact .inl ⟨_, by rw [exec, execTrapGetc, h]⟩
    | none => exact .inr (.inl ⟨⟨_, by rw [exec, execTrapGetc, h]⟩, .inl rfl, s.consoleGet_eq_none_iff.1 h⟩)
  | trapIn =>
    cases h : State.consoleGet (s.consolePutAll s.inPrompt).consoleFlush with
    | some p => exact .inl ⟨_, by simp only [exec, execTrapIn, h]; rfl⟩
    | none =>
      have hwait := (State.consoleGet_eq_none_iff (s.consolePutAll s.inPrompt).consoleFlush).1 h
      exact .inr (.inl ⟨⟨_, by simp only [exec, execTrapIn, h]; rfl⟩, .inr rfl, hwait⟩)
  | trapPuts =>
    exact (stringResult_answers putsBytes (s.reg trapReg) s).imp_right fun ⟨hstop, hloop, hendless⟩ =>
      .inr ⟨hstop, .inl ⟨rfl, hloop⟩, hendless⟩
  | trapPutsp =>
    exact (stringResult_answers putspBytes (s.reg trapReg) s).imp_right fun ⟨hstop, hloop, hendless⟩ =>
      .inr ⟨hstop, .inr ⟨rfl, hloop⟩, hendless⟩
  | addReg | addImm | andReg | andImm | notReg | lea | ld | ldi | ldr | st | sti | str => exact .inl ⟨_, rfl⟩
  | br | jsr | jsrr | jmp | rti | res | trapOut | trapHalt | trap => exact .inl ⟨_, rfl⟩

/-- Settles O29: outside RUNNING the step names the run state, and in RUNNING it answers what the fetched instruction does,
in the state after the fetch. -/
theorem everyStopHasItsReason : Obligations.EveryStopHasItsReason := by
  unfold Obligations.EveryStopHasItsReason
  intro s
  cases hrun : s.run with
  | halted =>
    rw [step_of_halted hrun]
    exact ⟨nofun, fun f hf => by cases hf; exact .inl ⟨rfl, rfl⟩⟩
  | faulted =>
    rw [step_of_faulted hrun]
    exact ⟨nofun, fun f hf => by cases hf; exact .inr (.inl ⟨rfl, rfl⟩)⟩
  | running =>
    rw [step_of_running hrun, State.fetch_instr]
    rcases exec_answers (decode (s.memRead s.pc)) s.fetch with
      ⟨t, hnext⟩ | ⟨⟨out, hstop⟩, hblocks, hin, hended, heof⟩ | ⟨hstop, hloop, hended, hanswers, -⟩
    · rw [hnext]
      exact ⟨nofun, nofun⟩
    · rw [hstop]
      rw [State.fetch_kbdEnded] at hended
      rw [State.fetch_consoleEof] at heof
      exact ⟨nofun, fun f hf => by cases hf; exact .inr (.inr (.inl ⟨rfl, hblocks, ⟨out, rfl⟩, hin, hended, heof⟩))⟩
    · rw [hstop]
      rw [State.fetch_kbdEnded] at hended
      exact ⟨nofun, fun f hf => by cases hf; exact .inr (.inr (.inr ⟨rfl, rfl, hended, hanswers, hloop⟩))⟩

end Sys2Proof.Machine
end

section
/-! PROOF. ADD, AND and NOT (spec/41_alu.md R80 to R84): each ends by `writeResult` of one value in the start state, so
flag and frame are said once, and what is left of each statement is the arithmetic of the value. -/

namespace Sys2Proof.Machine

section Equations

variable (dr sr1 sr2 : Reg) (imm : BitVec 5) (s : State)

theorem exec_addReg : exec (.addReg dr sr1 sr2) s = .next (s.writeResult dr (s.reg sr1 + s.reg sr2)) := rfl
theorem exec_addImm : exec (.addImm dr sr1 imm) s = .next (s.writeResult dr (s.reg sr1 + sext imm)) := rfl
theorem exec_andReg : exec (.andReg dr sr1 sr2) s = .next (s.writeResult dr (s.reg sr1 &&& s.reg sr2)) := rfl
theorem exec_andImm : exec (.andImm dr sr1 imm) s = .next (s.writeResult dr (s.reg sr1 &&& sext imm)) := rfl
theorem exec_notReg : exec (.notReg dr sr1) s = .next (s.writeResult dr (~~~ s.reg sr1)) := rfl

end Equations

/-- A result leaves everything but its register and COND. -/
theorem State.writeResult_operateFrame (s : State) (dr : Reg) (v : Word) : OperateFrame dr s (s.writeResult dr v) :=
  ⟨fun _ hq => s.writeResult_reg_ne v hq, rfl, fun _ => rfl, ⟨rfl, rfl, rfl, rfl⟩, ⟨rfl, rfl, rfl, rfl, rfl⟩, rfl, rfl, rfl⟩

/-- What an instruction that ends by writing the value `v` does: DR holds `v`, COND is the flag of DR, and nothing else
changes. -/
theorem exec_writesResult {i : Instr} {s : State} {dr : Reg} {v : Word} (h : exec i s = .next (s.writeResult dr v)) :
    ∃ t, exec i s = .next t ∧ t.reg dr = v ∧ t.cond = flagOf (t.reg dr) ∧ OperateFrame dr s t := by
  refine ⟨_, h, s.writeResult_reg_same dr v, ?_, s.writeResult_operateFrame dr v⟩
  rw [State.writeResult_cond, State.writeResult_reg_same]

/-- The bits of a sign-extended field: past its sign bit, every bit is the sign bit. -/
theorem getLsbD_sext {n : Nat} (f : BitVec (n + 1)) {k : Nat} (hk : k < 16) :
    (sext f).getLsbD k = f.getLsbD (min k n) := by
  rw [sext, BitVec.getLsbD_signExtend, BitVec.msb_eq_getLsbD_last]
  rcases Nat.lt_or_ge k (n + 1) with hlow | hhigh
  · simp [hk, hlow, Nat.min_eq_left (Nat.le_of_lt_succ hlow)]
  · simp [hk, Nat.not_lt.2 hhigh, Nat.min_eq_right (Nat.le_of_succ_le hhigh)]

/-- Settles O32: the word sum is the sum modulo 65536, and adding the extended immediate adds its signed value. -/
theorem addWritesTheSum : Obligations.AddWritesTheSum := by
  unfold Obligations.AddWritesTheSum
  constructor
  · intro dr sr1 sr2 s
    obtain ⟨t, hnext, hsum, hrest⟩ := exec_writesResult (exec_addReg dr sr1 sr2 s)
    exact ⟨t, hnext, by rw [hsum, BitVec.toNat_add], hrest⟩
  · intro dr sr1 imm s
    obtain ⟨t, hnext, hsum, hrest⟩ := exec_writesResult (exec_addImm dr sr1 imm s)
    exact ⟨t, hnext, hsum.trans (add_sext (s.reg sr1) imm (by decide)), hrest⟩

/-- Settles O33: bit by bit, with the immediate's bits from `getLsbD_sext`. -/
theorem andWritesTheBitwiseAnd : Obligations.AndWritesTheBitwiseAnd := by
  unfold Obligations.AndWritesTheBitwiseAnd
  constructor
  · intro dr sr1 sr2 s
    obtain ⟨t, hnext, hand, hrest⟩ := exec_writesResult (exec_andReg dr sr1 sr2 s)
    exact ⟨t, hnext, fun k _ => by rw [hand, BitVec.getLsbD_and], hrest⟩
  · intro dr sr1 imm s
    obtain ⟨t, hnext, hand, hrest⟩ := exec_writesResult (exec_andImm dr sr1 imm s)
    exact ⟨t, hnext, fun k hk => by rw [hand, BitVec.getLsbD_and, getLsbD_sext imm hk], hrest⟩

/-- Settles O34: the complement of a word is 65535 minus its number. -/
theorem notWritesTheComplement : Obligations.NotWritesTheComplement := by
  unfold Obligations.NotWritesTheComplement
  intro dr sr s
  obtain ⟨t, hnext, hnot, hrest⟩ := exec_writesResult (exec_notReg dr sr s)
  exact ⟨t, hnext, by rw [hnot, BitVec.toNat_not], hrest⟩

/-- Settles O35: the complement plus one is the two's-complement negation. -/
theorem notThenAddOneNegates : Obligations.NotThenAddOneNegates := by
  unfold Obligations.NotThenAddOneNegates
  intro r s
  have hone : sext 1#5 = 1#16 := by decide
  refine ⟨_, _, exec_notReg r r s, exec_addImm r r 1#5 _, ?_⟩
  rw [State.writeResult_reg_same, State.writeResult_reg_same, hone, ← BitVec.neg_eq_not_add]
  exact BitVec.toNat_neg _

end Sys2Proof.Machine
end

section
/-! PROOF. BR, JMP, JSR and JSRR (spec/42_control.md R90 to R95): a jump is one write of `pc` and a call writes the link
before it, so frame and link are said once, and what is left of each statement is where `pc` goes. -/

namespace Sys2Proof.Machine

section Equations

variable (nzp : BitVec 3) (off9 : BitVec 9) (off11 : BitVec 11) (base : Reg) (s : State)

theorem exec_jmp : exec (.jmp base) s = .next (s.setPc (s.reg base)) := rfl

/-- A branch that is not taken writes back the `pc` it found. -/
theorem exec_br :
    exec (.br nzp off9) s = .next (s.setPc (if s.condTest nzp then s.pcRel9 off9 else s.pc)) := by
  rw [exec, execBr]
  cases s.condTest nzp <;> rfl

theorem exec_jsr : exec (.jsr off11) s = .next ((s.setReg 7#3 s.pc).setPc (s.pcRel11 off11)) := rfl

/-- The base is read after the link is written, so base 7 reads the link (D19). -/
theorem exec_jsrr :
    exec (.jsrr base) s = .next ((s.setReg 7#3 s.pc).setPc (if base = 7#3 then s.pc else s.reg base)) := by
  have hbase : (s.setReg 7#3 s.pc).reg base = if base = 7#3 then s.pc else s.reg base := by
    split
    · subst base; exact s.reg_setReg_same _ _
    · exact s.reg_setReg_ne _ ‹_›
  rw [← hbase]
  rfl

end Equations

/-- A write of `pc` leaves everything else. -/
theorem State.setPc_jumpFrame (s : State) (a : Word) : JumpFrame s (s.setPc a) :=
  ⟨rfl, fun _ => rfl, ⟨rfl, rfl, rfl, rfl⟩, ⟨rfl, rfl, rfl, rfl, rfl⟩, rfl, rfl, rfl⟩

/-- What an instruction that only writes `pc` does. -/
theorem exec_jumps {i : Instr} {s : State} {a : Word} (h : exec i s = .next (s.setPc a)) :
    ∃ t, exec i s = .next t ∧ t.pc = a ∧ SameRegs s t ∧ JumpFrame s t :=
  ⟨_, h, s.setPc_pc a, s.reg_setPc a, s.setPc_jumpFrame a⟩

/-- What an instruction that writes the link and then `pc` does (R94). -/
theorem exec_calls {i : Instr} {s : State} {a : Word} (h : exec i s = .next ((s.setReg 7#3 s.pc).setPc a)) :
    ∃ t, exec i s = .next t ∧ t.reg 7#3 = s.pc ∧ t.pc = a ∧ SameRegsBut 7#3 s t ∧ JumpFrame s t :=
  ⟨_, h, s.reg_setReg_same _ _, rfl, fun _ hr => s.reg_setReg_ne _ hr, s.setPc_jumpFrame a⟩

/-! ### The test of a branch -/

theorem and_ne_zero_iff {n : Nat} (x y : BitVec n) :
    x &&& y ≠ 0#n ↔ ∃ k : Fin n, x.getLsbD k = true ∧ y.getLsbD k = true := by
  rw [Ne, BitVec.eq_of_getLsbD_eq_iff, Fin.exists_iff]
  simp only [BitVec.getLsbD_and, BitVec.getLsbD_zero, Bool.and_eq_false_iff, not_forall, not_or, Bool.not_eq_false]

/-- The bitwise test asks for a bit that is set on both sides. -/
theorem State.condTest_iff (s : State) (nzp : BitVec 3) :
    s.condTest nzp = true ↔ ∃ k : Fin 3, nzp.getLsbD k = true ∧ s.cond.getLsbD k = true := by
  rw [State.condTest, decide_eq_true_eq]
  exact and_ne_zero_iff nzp s.cond

/-- Settles O36: the test of a branch is a common bit, and the target adds the signed offset. -/
theorem branchIsTakenOnACommonBit : Obligations.BranchIsTakenOnACommonBit := by
  unfold Obligations.BranchIsTakenOnACommonBit
  intro nzp off s
  obtain ⟨t, hnext, hpc, hrest⟩ := exec_jumps (exec_br nzp off s)
  have htarget : s.pcRel9 off = BitVec.ofInt 16 (s.pc.toNat + off.toInt) := add_sext s.pc off (by decide)
  exact ⟨t, hnext, hpc.trans (if_congr (s.condTest_iff nzp) htarget rfl), hrest⟩

/-- Settles O37: each entry of the table is the bitwise test of its row and column. -/
theorem branchTableOfTheManual : Obligations.BranchTableOfTheManual := by
  unfold Obligations.BranchTableOfTheManual
  intro row hrow column hcolumn off s
  have htest : decide (row.1 &&& column.1 ≠ 0b000#3) = column.2 := by
    revert column
    revert row
    decide
  obtain ⟨t, hnext, hpc, -⟩ := exec_jumps (exec_br row.1 off { s with cond := column.1 })
  rw [State.condTest, htest] at hpc
  exact ⟨t, hnext, hpc⟩

/-- Settles O38: JMP only writes `pc`. -/
theorem jmpGoesToTheBase : Obligations.JmpGoesToTheBase := by
  unfold Obligations.JmpGoesToTheBase
  exact fun base s => exec_jumps (exec_jmp base s)

/-- Settles O39: JSR is a call whose target adds the signed offset. -/
theorem jsrLinksAndJumps : Obligations.JsrLinksAndJumps := by
  unfold Obligations.JsrLinksAndJumps
  intro off s
  obtain ⟨t, hnext, hlink, hpc, hrest⟩ := exec_calls (exec_jsr off s)
  exact ⟨t, hnext, hlink, hpc.trans (add_sext s.pc off (by decide)), hrest⟩

/-- Settles O40: JSRR is a call to the base as it stands once the link is written. -/
theorem jsrrLinksThenReadsTheBase : Obligations.JsrrLinksThenReadsTheBase := by
  unfold Obligations.JsrrLinksThenReadsTheBase
  exact fun base s => exec_calls (exec_jsrr base s)

/-- Settles O41: either call leaves its incremented `pc` in `x[7]`, and JMP goes to what `x[7]` holds. -/
theorem callThenJmpR7Returns : Obligations.CallThenJmpR7Returns := by
  unfold Obligations.CallThenJmpR7Returns
  intro s t u hcall hkept
  have hlink : t.reg 7#3 = s.pc := by
    rcases hcall with ⟨off, h⟩ | ⟨base, h⟩
    · obtain ⟨t', hnext, hlink, -⟩ := jsrLinksAndJumps off s
      cases h.symm.trans hnext
      exact hlink
    · obtain ⟨t', hnext, hlink, -⟩ := jsrrLinksThenReadsTheBase base s
      cases h.symm.trans hnext
      exact hlink
  obtain ⟨v, hnext, hpc, -⟩ := jmpGoesToTheBase 7#3 u
  exact ⟨v, hnext, hpc.trans (hkept.trans hlink)⟩

end Sys2Proof.Machine
end

section
/-! PROOF. LD, LDI, LDR and LEA (spec/43_load.md R100 to R104): reads change nothing but the device cells and the input, so
a load is one write of a result in a state that only reads have touched; flag, frame and the case away from the status
register are said once for all three. -/

namespace Sys2Proof.Machine

/-! ### The addressing modes -/

section Modes

variable (s : State)

theorem immediate_eq_ofInt (imm : BitVec 5) : immediate imm = BitVec.ofInt 16 imm.toInt := rfl

theorem State.pcRel9_eq_ofInt (off : BitVec 9) : s.pcRel9 off = BitVec.ofInt 16 (s.pc.toNat + off.toInt) :=
  add_sext s.pc off (by decide)

theorem State.pcRel11_eq_ofInt (off : BitVec 11) : s.pcRel11 off = BitVec.ofInt 16 (s.pc.toNat + off.toInt) :=
  add_sext s.pc off (by decide)

theorem State.baseOff6_eq_ofInt (base : Reg) (off : BitVec 6) :
    s.baseOff6 base off = BitVec.ofInt 16 ((s.reg base).toNat + off.toInt) :=
  add_sext (s.reg base) off (by decide)

end Modes

/-- Settles O7: the two PC-relative modes and base plus offset are sums with an extended field, and the indirect mode reads
at the first of them. -/
theorem addressingModesAddSignedOffsets : Obligations.AddressingModesAddSignedOffsets := by
  unfold Obligations.AddressingModesAddSignedOffsets
  intro s
  have hindirect (off : BitVec 9) : s.indirect9 off = s.memRead (BitVec.ofInt 16 (s.pc.toNat + off.toInt)) := by
    rw [State.indirect9, s.pcRel9_eq_ofInt off]
  exact ⟨immediate_eq_ofInt, s.pcRel9_eq_ofInt, s.pcRel11_eq_ofInt, hindirect, s.baseOff6_eq_ofInt⟩

/-! ### What reads leave unchanged -/

/-- `u` is `s` but for what the polls of reads at the status register change (20_memory.md R33 to R35): the two device cells
and the input. -/
structure ReadFrame (s u : State) : Prop where
  regs : SameRegs s u
  pc : u.pc = s.pc
  control : SameControl s u
  params : SameParams s u
  out : u.conOut = s.conOut
  cells : SameCellsButDevices s u

theorem ReadFrame.refl (s : State) : ReadFrame s s where
  regs _ := rfl
  pc := rfl
  control := ⟨rfl, rfl, rfl, rfl⟩
  params := ⟨rfl, rfl⟩
  out := rfl
  cells _ _ _ := rfl

theorem ReadFrame.afterRead {s u : State} (h : ReadFrame s u) (a : Word) : ReadFrame s (u.afterRead a) where
  regs r := (u.reg_afterRead a r).trans (h.regs r)
  pc := (u.afterRead_pc a).trans h.pc
  control := by simpa [SameControl] using h.control
  params := by simpa [SameParams] using h.params
  out := (u.afterRead_conOut a).trans h.out
  cells b hs hd := (u.cell_afterRead a b hs hd).trans (h.cells b hs hd)

/-! ### The loads -/

/-- A result written after reads leaves everything else as the reads have left it. -/
theorem ReadFrame.writeResult {s u : State} (h : ReadFrame s u) (dr : Reg) (v : Word) :
    LoadFrame dr s u (u.writeResult dr v) :=
  ⟨fun r hr => (u.writeResult_reg_ne v hr).trans (h.regs r), h.pc, h.control, h.params, h.out, fun _ => rfl,
    ⟨rfl, rfl, rfl, rfl, rfl⟩, h.cells⟩

/-- What an instruction that ends by loading the word at `ea` does, where only reads have led from `s` to `u`: DR holds the
word that this last read returns, which away from the status register is the cell, and COND is the flag of DR. -/
theorem exec_loads {i : Instr} {s u : State} {dr : Reg} {ea : Word} (hu : ReadFrame s u)
    (h : exec i s = .next (u.loadFrom dr ea)) :
    ∃ t, exec i s = .next t ∧ t.reg dr = u.memRead ea ∧ t.cond = flagOf (t.reg dr) ∧
      LoadFrame dr s (u.afterRead ea) t ∧
      (ea ≠ kbsrAddr → t.reg dr = u.cell ea ∧ SameCells u t ∧ SameInput u t) := by
  have hreg : (u.loadFrom dr ea).reg dr = u.memRead ea := State.writeResult_reg_same _ dr _
  refine ⟨u.loadFrom dr ea, h, hreg, ?_, (hu.afterRead ea).writeResult dr _, fun hea => ?_⟩
  · rw [hreg]
    exact State.writeResult_cond _ dr _
  · rw [hreg, u.memRead_of_ne hea, State.loadFrom, u.afterRead_of_ne hea]
    exact ⟨rfl, fun _ => rfl, rfl, rfl, rfl, rfl, rfl⟩

section Equations

variable (dr base : Reg) (off9 : BitVec 9) (off6 : BitVec 6) (s : State)

theorem exec_ld : exec (.ld dr off9) s = .next (s.loadFrom dr (s.pcRel9 off9)) := rfl

/-- The pointer is read first, and the data in the state that this read leaves (R101). -/
theorem exec_ldi : exec (.ldi dr off9) s =
    .next ((s.afterRead (s.pcRel9 off9)).loadFrom dr (s.memRead (s.pcRel9 off9))) := rfl

theorem exec_ldr : exec (.ldr dr base off6) s = .next (s.loadFrom dr (s.baseOff6 base off6)) := rfl
theorem exec_lea : exec (.lea dr off9) s = .next (s.writeResult dr (s.pcRel9 off9)) := rfl

end Equations

/-- Settles O42: LD is one load in the start state. -/
theorem ldLoadsTheAddressedWord : Obligations.LdLoadsTheAddressedWord := by
  unfold Obligations.LdLoadsTheAddressedWord
  exact fun dr off s => exec_loads (.refl s) (exec_ld dr off s)

/-- Settles O43: LDI is a load after one read, and where that read does not poll it is a load in the start state. -/
theorem ldiLoadsThroughThePointer : Obligations.LdiLoadsThroughThePointer := by
  unfold Obligations.LdiLoadsThroughThePointer
  intro dr off s
  obtain ⟨t, hnext, hreg, hflag, hframe, hplain⟩ :=
    exec_loads ((ReadFrame.refl s).afterRead (s.pcRel9 off)) (exec_ldi dr off s)
  refine ⟨t, hnext, hreg, hflag, hframe, fun hpointer hdata => ?_⟩
  rw [s.memRead_of_ne hpointer, s.afterRead_of_ne hpointer] at hplain
  exact hplain hdata

/-- Settles O44: LDR is one load in the start state, whose address is formed before DR is written. -/
theorem ldrLoadsFromBasePlusOffset : Obligations.LdrLoadsFromBasePlusOffset := by
  unfold Obligations.LdrLoadsFromBasePlusOffset
  exact fun dr base off s => exec_loads (.refl s) (exec_ldr dr base off s)

/-- Settles O45: LEA ends by writing the PC-relative address as its result. -/
theorem leaWritesTheAddressAndFlags : Obligations.LeaWritesTheAddressAndFlags := by
  unfold Obligations.LeaWritesTheAddressAndFlags
  intro dr off s
  obtain ⟨t, hnext, haddress, hrest⟩ := exec_writesResult (exec_lea dr off s)
  exact ⟨t, hnext, haddress.trans (s.pcRel9_eq_ofInt off), hrest⟩

end Sys2Proof.Machine
end

section
/-! PROOF. ST, STI and STR (spec/44_store.md R110 to R112): a store is one memory write in a state that only reads have
touched; what it writes and what it leaves are said once. -/

namespace Sys2Proof.Machine

section Equations

variable (sr base : Reg) (off9 : BitVec 9) (off6 : BitVec 6) (s : State)

theorem exec_st : exec (.st sr off9) s = .next (s.memWrite (s.pcRel9 off9) (s.reg sr)) := rfl

/-- The pointer is read first, and the write is in the state that this read leaves (R111). -/
theorem exec_sti : exec (.sti sr off9) s =
    .next ((s.afterRead (s.pcRel9 off9)).memWrite (s.indirect9 off9) (s.reg sr)) := rfl

theorem exec_str : exec (.str sr base off6) s = .next (s.memWrite (s.baseOff6 base off6) (s.reg sr)) := rfl

end Equations

/-- What an instruction that ends by writing `v` at `ea` in the state `u` does. -/
theorem exec_stores {i : Instr} {s u : State} {ea v : Word} (h : exec i s = .next (u.memWrite ea v)) :
    ∃ t, exec i s = .next t ∧ t.cell ea = v ∧ StoreFrame ea u t :=
  ⟨_, h, u.cell_memWrite_same ea v, u.memWrite_storeFrame ea v⟩

/-- A word written after reads leaves all but itself as the reads have left it, so all but itself, the device cells and the
input as they were before the reads. -/
theorem ReadFrame.memWrite {s u : State} (h : ReadFrame s u) (ea v : Word) :
    SameRegs s (u.memWrite ea v) ∧ (u.memWrite ea v).pc = s.pc ∧ SameControl s (u.memWrite ea v) ∧
      SameParams s (u.memWrite ea v) ∧ (u.memWrite ea v).conOut = s.conOut ∧
      SameCellsButDevicesAnd ea s (u.memWrite ea v) :=
  ⟨h.regs, h.pc, h.control, h.params, h.out, fun a ha hs hd =>
    (u.cell_setCell_ne v ha).trans (h.cells a hs hd)⟩

/-- Settles O46: ST is one write in the start state. -/
theorem stStoresAtThePcRelativeAddress : Obligations.StStoresAtThePcRelativeAddress := by
  unfold Obligations.StStoresAtThePcRelativeAddress
  exact fun sr off s => exec_stores (exec_st sr off s)

/-- Settles O47: STI is a write after one read, and where that read does not poll it is a write in the start state. -/
theorem stiStoresThroughThePointer : Obligations.StiStoresThroughThePointer := by
  unfold Obligations.StiStoresThroughThePointer
  intro sr off s
  obtain ⟨hregs, hpc, hcontrol, hparams, hout, hcells⟩ :=
    ((ReadFrame.refl s).afterRead (s.pcRel9 off)).memWrite (s.indirect9 off) (s.reg sr)
  refine ⟨_, exec_sti sr off s, State.cell_memWrite_same _ _ _, State.memWrite_storeFrame _ _ _, hregs, hpc,
    s.afterRead_cond _, hcontrol, hparams, hout, hcells, fun hpointer => ⟨s.memRead_of_ne hpointer, ?_⟩⟩
  rw [s.afterRead_of_ne hpointer]
  exact s.memWrite_storeFrame _ _

/-- Settles O48: STR is one write in the start state. -/
theorem strStoresAtBasePlusOffset : Obligations.StrStoresAtBasePlusOffset := by
  unfold Obligations.StrStoresAtBasePlusOffset
  exact fun sr base off s => exec_stores (exec_str sr base off s)

end Sys2Proof.Machine
end

section
/-! PROOF. The console over an instruction (45_trap.md R129): which of its effects write output and which take input. -/

namespace Sys2Proof.Machine

/-- Of the effects of an instruction only its output changes `CON_OUT`. -/
theorem conOut_keptByEffects {i : Instr} (ho : ¬ writesOutput i) (s : State) (out : List ConEvent) :
    KeptByEffects i s (·.conOut = out) where
  setReg _ _ _ _ h := h
  setCC _ _ _ h := h
  setPc _ _ _ h := h
  read _ u a h := (u.afterRead_conOut a).trans h
  store _ _ _ _ h := h
  take _ _ _ _ _ h := h
  append ho' := absurd ho' ho

/-- Of the effects of an instruction only its blocking reads and the polls of its reads take input. -/
theorem input_keptByEffects {i : Instr} (hb : ¬ blocksOnInput i) (hr : readsMemory i = false) (s s₀ : State) :
    KeptByEffects i s (SameInput s₀) where
  setReg _ _ _ _ h := h
  setCC _ _ _ h := h
  setPc _ _ _ h := h
  read hr' := by rw [hr] at hr'; cases hr'
  store _ _ _ _ h := h
  take hb' := absurd hb' hb
  append _ _ _ h := h

/-- Settles O27: neither HALT nor a decode fault touches the console, nor does any effect of another instruction but its
output, its blocking reads and its polls. -/
theorem consoleTrafficComesFromTrapsAndPolls : Obligations.ConsoleTrafficComesFromTrapsAndPolls := by
  unfold Obligations.ConsoleTrafficComesFromTrapsAndPolls
  intro i s t h
  have hrefl : SameInput s s := ⟨rfl, rfl, rfl, rfl, rfl⟩
  rcases exec_cases h with ⟨-, rfl⟩ | ⟨c, -, rfl⟩ | hkept
  · exact ⟨fun _ => rfl, fun _ _ => hrefl⟩
  · exact ⟨fun _ => rfl, fun _ _ => hrefl⟩
  · exact ⟨fun ho => hkept (·.conOut = s.conOut) (conOut_keptByEffects ho s _) rfl,
      fun hb hr => hkept (SameInput s) (input_keptByEffects hb hr s s) hrefl⟩

end Sys2Proof.Machine
end

section
/-! PROOF. The bytes of a word that the routines write (45_trap.md R122 to R125), by their numbers. -/

namespace Sys2Proof.Machine

theorem lowByte_eq_ofNat (w : Word) : lowByte w = BitVec.ofNat 8 w.toNat := rfl

theorem highByte_eq_ofNat (w : Word) : highByte w = BitVec.ofNat 8 (w.toNat / 256) := by
  rw [highByte, BitVec.extractLsb', Nat.shiftRight_eq_div_pow]

theorem highByte_eq_zero_iff (w : Word) : highByte w = 0x00#8 ↔ w.toNat < 256 := by
  have hw := w.isLt
  rw [highByte_eq_ofNat, ← BitVec.toNat_inj, BitVec.toNat_ofNat, BitVec.toNat_ofNat]
  omega

theorem zext16_eq_ofNat (b : Byte) : zext16 b = BitVec.ofNat 16 b.toNat := (BitVec.ofNat_toNat 16 b).symm

theorem toNat_zext16 (b : Byte) : (zext16 b).toNat = b.toNat := BitVec.toNat_setWidth_of_le (by decide)

/-- What a blocking read extends with zeros is echoed as it was read. -/
theorem lowByte_zext16 (b : Byte) : lowByte (zext16 b) = b := by
  rw [lowByte_eq_ofNat, toNat_zext16, BitVec.ofNat_toNat, BitVec.setWidth_eq]

/-- The output of PUTS for the words of a string. -/
theorem map_put_putsBytes (ws : List Word) :
    (ws.flatMap putsBytes).map ConEvent.put = ws.map fun w => .put (BitVec.ofNat 8 w.toNat) := by
  rw [List.map_flatMap, List.map_eq_flatMap]
  rfl

/-- The output of PUTSP for the words of a string. -/
theorem map_put_putspBytes (ws : List Word) :
    (ws.flatMap putspBytes).map ConEvent.put = ws.flatMap fun w =>
      if w.toNat < 256 then [.put (BitVec.ofNat 8 w.toNat)]
      else [.put (BitVec.ofNat 8 w.toNat), .put (BitVec.ofNat 8 (w.toNat / 256))] := by
  rw [List.map_flatMap]
  congr 1
  funext w
  rw [putspBytes, lowByte_eq_ofNat, ← highByte_eq_ofNat]
  simp only [highByte_eq_zero_iff]
  split <;> rfl

end Sys2Proof.Machine
end

section
/-! PROOF. OUT, PUTS and PUTSP (45_trap.md R122, R123, R125): a routine that writes bytes and flushes is said once, and a
string off the status register is read word by word with no poll. -/

namespace Sys2Proof.Machine

/-- What an instruction that writes the bytes `bs` and flushes does. -/
theorem exec_putsAll {i : Instr} {s : State} {bs : List Byte} (h : exec i s = .next (s.consolePutAll bs).consoleFlush) :
    ∃ t, exec i s = .next t ∧ t.conOut = s.conOut ++ bs.map .put ++ [.flush] ∧ OutputFrame s t :=
  ⟨_, h, rfl, fun _ => rfl, rfl, rfl, fun _ => rfl, ⟨rfl, rfl, rfl, rfl⟩, ⟨rfl, rfl, rfl, rfl, rfl⟩, rfl, rfl⟩

theorem exec_trapOut (s : State) : exec .trapOut s = .next (s.consolePutAll [lowByte (s.reg 0#3)]).consoleFlush := rfl

/-- Settles O50: OUT writes one byte and flushes. -/
theorem outWritesTheLowByte : Obligations.OutWritesTheLowByte := by
  unfold Obligations.OutWritesTheLowByte
  intro s
  obtain ⟨t, hnext, hout, hframe⟩ := exec_putsAll (exec_trapOut s)
  exact ⟨t, hnext, by rw [hout, List.append_assoc]; rfl, hframe⟩

/-- The string `ws` stands in memory from `a` on, ended by a zero word, with none of its words at the status register. -/
structure StringAt (s : State) (a : Word) (ws : List Word) : Prop where
  words : ∀ k (h : k < ws.length), s.cell (a + BitVec.ofNat 16 k) = ws[k] ∧ ws[k] ≠ 0x0000#16
  zero : s.cell (a + BitVec.ofNat 16 ws.length) = 0x0000#16
  off_status : ∀ k, k ≤ ws.length → a + BitVec.ofNat 16 k ≠ kbsrAddr

theorem word_add_succ (a : Word) (k : Nat) :
    a + BitVec.ofNat 16 (k + 1) = a + 0x0001#16 + BitVec.ofNat 16 k := by
  rw [Nat.add_comm, BitVec.ofNat_add, BitVec.add_assoc]

namespace StringAt

variable {s : State} {a w : Word} {ws : List Word}

/-- The first word of a string, or the zero word of an empty one, is an ordinary cell. -/
theorem ne_status (h : StringAt s a ws) : a ≠ kbsrAddr := by
  simpa using h.off_status 0 (Nat.zero_le _)

theorem cell_nil (h : StringAt s a []) : s.cell a = 0x0000#16 := by
  simpa using h.zero

theorem cell_cons (h : StringAt s a (w :: ws)) : s.cell a = w ∧ w ≠ 0x0000#16 := by
  simpa using h.words 0 (Nat.succ_pos _)

/-- The rest of a string stands at the next address, also after output. -/
theorem tail (h : StringAt s a (w :: ws)) (bs : List Byte) : StringAt (s.consolePutAll bs) (a + 0x0001#16) ws where
  words k hk := by
    rw [State.cell_consolePutAll, ← word_add_succ]
    exact h.words (k + 1) (Nat.succ_lt_succ hk)
  zero := by
    rw [State.cell_consolePutAll, ← word_add_succ]
    exact h.zero
  off_status k hk := by
    rw [← word_add_succ]
    exact h.off_status (k + 1) (Nat.succ_le_succ hk)

end StringAt

theorem State.consolePutAll_append (s : State) (bs cs : List Byte) :
    s.consolePutAll (bs ++ cs) = (s.consolePutAll bs).consolePutAll cs := by
  simp [State.consolePutAll]

/-- The loop over a string off the status register leaves after its last word, with the bytes of each word written. -/
theorem StringAt.printed {s : State} {a : Word} {ws : List Word} (h : StringAt s a ws) (bytesOf : Word → List Byte) :
    PrintedString bytesOf s a (s.consolePutAll (ws.flatMap bytesOf)) := by
  induction ws generalizing s a with
  | nil =>
    have hstop := PrintedString.stop (bytesOf := bytesOf) s a ((s.memRead_of_ne h.ne_status).trans h.cell_nil)
    rw [s.afterRead_of_ne h.ne_status] at hstop
    rwa [List.flatMap_nil, show s.consolePutAll [] = s by simp [State.consolePutAll]]
  | cons w ws ih =>
    obtain ⟨hcell, hne⟩ := h.cell_cons
    have hread : s.memRead a = w := (s.memRead_of_ne h.ne_status).trans hcell
    refine .more s a _ (hread ▸ hne) ?_
    rw [s.afterRead_of_ne h.ne_status, hread, List.flatMap_cons, State.consolePutAll_append]
    exact ih (h.tail (bytesOf w))

/-- A string routine over a string off the status register writes the bytes of its words and flushes. -/
theorem StringAt.stringResult_eq {s : State} {a : Word} {ws : List Word} (h : StringAt s a ws)
    (bytesOf : Word → List Byte) :
    stringResult (State.stringEnd bytesOf a s) = .next (s.consolePutAll (ws.flatMap bytesOf)).consoleFlush :=
  (stringResult_next_iff bytesOf a s _).2 ⟨_, h.printed bytesOf, rfl⟩

theorem exec_trapPuts (s : State) : exec .trapPuts s = stringResult (State.stringEnd putsBytes (s.reg 0#3) s) := rfl

theorem exec_trapPutsp (s : State) : exec .trapPutsp s = stringResult (State.stringEnd putspBytes (s.reg 0#3) s) := rfl

/-- Settles O51: PUTS writes the low byte of each word of the string. -/
theorem putsWritesTheLowBytes : Obligations.PutsWritesTheLowBytes := by
  unfold Obligations.PutsWritesTheLowBytes
  intro s ws hwords hzero hoff
  rw [← map_put_putsBytes]
  exact exec_putsAll ((exec_trapPuts s).trans (StringAt.stringResult_eq ⟨hwords, hzero, hoff⟩ putsBytes))

/-- Settles O52: PUTSP writes the low byte and the non-zero high byte of each word of the string. -/
theorem putspWritesBothBytes : Obligations.PutspWritesBothBytes := by
  unfold Obligations.PutspWritesBothBytes
  intro s ws hwords hzero hoff
  rw [← map_put_putspBytes]
  exact exec_putsAll ((exec_trapPutsp s).trans (StringAt.stringResult_eq ⟨hwords, hzero, hoff⟩ putspBytes))

/-- A string routine completes once the stream has ended or some listed answer is no. -/
theorem stringResult_completes {s : State} (h : s.kbdEnded = true ∨ false ∈ s.pollAnswers) (bytesOf : Word → List Byte)
    (a : Word) : ∃ t, stringResult (State.stringEnd bytesOf a s) = .next t := by
  rcases stringResult_answers bytesOf a s with hnext | ⟨-, -, hopen, hyes, -⟩
  · exact hnext
  · rcases h with hended | hno
    · cases hopen.symm.trans hended
    · exact absurd hno hyes

/-- Settles O53: the search of the routine answers where the loop leaves, and an endless loop needs a stream that goes on
and no listed answer that is no. -/
theorem stringRoutinesFollowTheLoop : Obligations.StringRoutinesFollowTheLoop := by
  unfold Obligations.StringRoutinesFollowTheLoop
  exact ⟨fun s t => stringResult_next_iff putsBytes (s.reg 0#3) s t,
    fun s t => stringResult_next_iff putspBytes (s.reg 0#3) s t,
    fun s h => ⟨stringResult_completes h putsBytes (s.reg 0#3), stringResult_completes h putspBytes (s.reg 0#3)⟩⟩

end Sys2Proof.Machine
end

section
/-! PROOF. GETC, IN and HALT (45_trap.md R121, R124, R126): the blocking read has three cases that complete, and what a
routine does that stores the word it returns is said once for both. -/

namespace Sys2Proof.Machine

/-! ### The blocking read -/

section Get

variable {s : State}

theorem State.consoleGet_of_listed {b : Byte} {rest : List Byte} (hk : s.kbdIn = b :: rest) :
    s.consoleGet = some (zext16 b, { s with kbdIn := rest, kbdTaken := s.kbdTaken + 1 }) := by
  simp only [State.consoleGet, State.nextByte_of_listed hk]

theorem State.consoleGet_of_open (hk : s.kbdIn = []) (ho : s.kbdEnded = false) :
    s.consoleGet = some (zext16 (freeByte s.kbdTaken), { s with kbdIn := [], kbdTaken := s.kbdTaken + 1 }) := by
  simp only [State.consoleGet, State.nextByte_of_open hk ho, ← hk]

theorem State.consoleGet_of_value {w : Word} (hk : s.kbdIn = []) (he : s.kbdEnded = true) (hw : s.consoleEof = .value w) :
    s.consoleGet = some (w, { s with kbdIn := s.kbdIn, kbdTaken := s.kbdTaken }) := by
  simp only [State.consoleGet, State.nextByte_of_ended hk he, hw]

end Get

/-! ### What the routines do with it -/

section Store

variable {i : Instr} {s : State} {w : Word} {ks : List Byte} {n : Nat} {out : List ConEvent}

/-- What a routine that leaves the input `ks`, `n` and the output `out` and stores `w` in `x[0]` does. -/
theorem exec_storesInput
    (h : exec i s = .next (({ s with kbdIn := ks, kbdTaken := n, conOut := out } : State).setReg 0#3 w)) :
    ∃ t, exec i s = .next t ∧ t.reg 0#3 = w ∧ t.kbdIn = ks ∧ t.kbdTaken = n ∧ t.conOut = out ∧ InputFrame s t :=
  ⟨_, h, State.reg_setReg_same _ _ _, rfl, rfl, rfl, fun _ hr => State.reg_setReg_ne _ _ hr, rfl, rfl, fun _ => rfl,
    ⟨rfl, rfl, rfl, rfl⟩, ⟨rfl, rfl⟩, rfl, rfl, rfl⟩

/-- GETC stores the word that the blocking read returns. -/
theorem exec_trapGetc_of_get (h : s.consoleGet = some (w, { s with kbdIn := ks, kbdTaken := n })) :
    exec .trapGetc s = .next (({ s with kbdIn := ks, kbdTaken := n, conOut := s.conOut } : State).setReg 0#3 w) := by
  rw [exec, execTrapGetc, h]
  rfl

/-- The state in which IN reads: the prompt has been written and flushed. -/
def State.prompted (s : State) : State := (s.consolePutAll s.inPrompt).consoleFlush

/-- IN echoes the low byte of the word that the blocking read returns, flushes and stores the word. -/
theorem exec_trapIn_of_get (h : s.prompted.consoleGet = some (w, { s.prompted with kbdIn := ks, kbdTaken := n })) :
    exec .trapIn s = .next (({ s with
      kbdIn := ks
      kbdTaken := n
      conOut := s.conOut ++ s.inPrompt.map .put ++ [.flush, .put (lowByte w), .flush] } : State).setReg 0#3 w) := by
  unfold State.prompted at h
  simp only [exec, execTrapIn, h]
  simp [State.consolePutAll, State.consolePut, State.consoleFlush, trapReg]

end Store

/-- A routine that has taken no byte has left the whole input. -/
theorem InputFrame.sameInput {s t : State} (h : InputFrame s t) (hin : t.kbdIn = s.kbdIn)
    (htaken : t.kbdTaken = s.kbdTaken) : SameInput s t := by
  obtain ⟨-, -, -, -, -, -, hended, hanswers, hpolls⟩ := h
  exact ⟨hin, hended, htaken, hanswers, hpolls⟩

/-- Settles O49: GETC stores what the blocking read returns in each of its three cases. -/
theorem getcStoresTheNextByte : Obligations.GetcStoresTheNextByte := by
  unfold Obligations.GetcStoresTheNextByte
  refine fun s => ⟨fun b rest hk => ?_, fun hk ho => ?_, fun w hk he hw => ?_⟩
  · have hget := State.consoleGet_of_listed hk
    obtain ⟨t, hnext, hreg, hrest⟩ := exec_storesInput (exec_trapGetc_of_get hget)
    exact ⟨t, hnext, by rw [hreg, toNat_zext16], hrest⟩
  · have hget := State.consoleGet_of_open hk ho
    obtain ⟨t, hnext, hreg, hrest⟩ := exec_storesInput (exec_trapGetc_of_get hget)
    exact ⟨t, hnext, ⟨_, hreg.trans (zext16_eq_ofNat _)⟩, hrest⟩
  · have hget := State.consoleGet_of_value hk he hw
    obtain ⟨t, hnext, hreg, hin, htaken, hout, hframe⟩ := exec_storesInput (exec_trapGetc_of_get hget)
    exact ⟨t, hnext, hreg, hframe.sameInput hin htaken, hout, hframe⟩

/-- Settles O54: after the prompt the blocking read has the same three cases, and IN stores and echoes what it returns. -/
theorem inPromptsReadsAndEchoes : Obligations.InPromptsReadsAndEchoes := by
  unfold Obligations.InPromptsReadsAndEchoes
  refine fun s => ⟨fun b rest hk => ?_, fun hk ho => ?_, fun w hk he hw => ?_⟩
  · have hget := State.consoleGet_of_listed (s := s.prompted) hk
    obtain ⟨t, hnext, hreg, hrest⟩ := exec_storesInput (exec_trapIn_of_get hget)
    rw [lowByte_zext16] at hrest
    exact ⟨t, hnext, by rw [hreg, toNat_zext16], hrest⟩
  · have hget := State.consoleGet_of_open (s := s.prompted) hk ho
    obtain ⟨t, hnext, hreg, hin, htaken, hout, hframe⟩ := exec_storesInput (exec_trapIn_of_get hget)
    rw [lowByte_zext16] at hout
    exact ⟨t, hnext, ⟨_, hreg.trans (zext16_eq_ofNat _), hout⟩, hin, htaken, hframe⟩
  · have hget := State.consoleGet_of_value (s := s.prompted) hk he hw
    obtain ⟨t, hnext, hreg, hin, htaken, hout, hframe⟩ := exec_storesInput (exec_trapIn_of_get hget)
    exact ⟨t, hnext, hreg, hframe.sameInput hin htaken, hout, hframe⟩

/-- HALT is the one write of the run state. -/
theorem exec_trapHalt (s : State) : exec .trapHalt s = .next s.halt := rfl

/-- Settles O56: halting leaves every field but the run state. -/
theorem haltStopsTheLoop : Obligations.HaltStopsTheLoop := by
  unfold Obligations.HaltStopsTheLoop
  exact fun s => ⟨s.halt, exec_trapHalt s, s.halt_run, s.halt_faultCause, s.halt_faultInstr, fun _ => rfl, rfl, rfl,
    fun _ => rfl, ⟨⟨rfl, rfl, rfl, rfl, rfl⟩, rfl, rfl, rfl⟩, rfl⟩

end Sys2Proof.Machine
end

section
/-! PROOF. RES, RTI and TRAP with an undefined vector (46_reserved.md R135, R136, 45_trap.md R127): what the decode fault
leaves unchanged, and what an instruction with a fatal cause therefore does, said once for the three kinds. -/

namespace Sys2Proof.Machine

/-- The decode fault writes nothing but `RUN` and the two fault latches. -/
theorem State.raiseDecodeFault_frame (s : State) (c : FaultCause) : FaultFrame s (s.raiseDecodeFault c) :=
  ⟨fun _ => rfl, s.raiseDecodeFault_pc c, s.raiseDecodeFault_cond c, fun _ => rfl,
    ⟨⟨rfl, rfl, rfl, rfl, rfl⟩, rfl, rfl, rfl⟩, s.raiseDecodeFault_instr c⟩

/-- An instruction with a fatal cause records it, with its code, and the latched word, and stops in FAULTED. -/
theorem exec_recordsFault {i : Instr} {c : FaultCause} (s : State) (h : fatalCause i = some c) :
    ∃ t, exec i s = .next t ∧ t.run = .faulted ∧ t.faultCause = some c ∧
      t.faultCause.map FaultCause.code = some c.code ∧ t.faultInstr = some s.instr ∧ FaultFrame s t :=
  ⟨s.raiseDecodeFault c, exec_of_fatalCause s h, s.raiseDecodeFault_run c, s.raiseDecodeFault_faultCause c,
    congrArg (Option.map FaultCause.code) (s.raiseDecodeFault_faultCause c), s.raiseDecodeFault_faultInstr c,
    s.raiseDecodeFault_frame c⟩

/-- Settles O57: each of the three kinds has a fatal cause, and its code is that of R140. No vector of the general TRAP
row makes a difference, so that the undefined ones are covered with the rest. -/
theorem fatalInstructionsTakeTheDecodeFault : Obligations.FatalInstructionsTakeTheDecodeFault := by
  unfold Obligations.FatalInstructionsTakeTheDecodeFault
  intro s
  have hres : fatalCause .res = some .reservedOpcode := rfl
  have hrti : fatalCause .rti = some .unimplementedOpcode := rfl
  have htrap (v : BitVec 8) : fatalCause (.trap v) = some .undefinedTrapVector := rfl
  exact ⟨exec_recordsFault s hres, exec_recordsFault s hrti, fun v _ => exec_recordsFault s (htrap v)⟩

end Sys2Proof.Machine
end

section
/-! PROOF. Decode faults are precise (60_exceptions.md R140, R141): the fault latches are written by the decode fault
alone, and a step on a word of a fatal kind is the fetch followed by that fault. -/

namespace Sys2Proof.Machine

/-- No effect of an instruction other than HALT and the fatal ones writes a fault latch. -/
theorem latches_keptByEffects (i : Instr) (s : State) (c : Option FaultCause) (w : Option Word) :
    KeptByEffects i s (fun u => u.faultCause = c ∧ u.faultInstr = w) where
  setReg _ _ _ _ h := h
  setCC _ _ _ h := h
  setPc _ _ _ h := h
  read _ u a h := ⟨(u.afterRead_faultCause a).trans h.1, (u.afterRead_faultInstr a).trans h.2⟩
  store _ _ _ _ h := h
  take _ _ _ _ _ h := h
  append _ _ _ h := h

/-- An instruction with no fatal cause leaves both fault latches. -/
theorem exec_latches {i : Instr} {s t : State} (h : exec i s = .next t) (hc : fatalCause i = none) :
    t.faultCause = s.faultCause ∧ t.faultInstr = s.faultInstr := by
  rcases exec_cases h with ⟨-, rfl⟩ | ⟨c, hc', -⟩ | hkept
  · exact ⟨rfl, rfl⟩
  · cases hc.symm.trans hc'
  · exact hkept _ (latches_keptByEffects i s _ _) ⟨rfl, rfl⟩

/-- An instruction with no fatal cause does not fault a running machine. -/
theorem exec_run_ne_faulted {i : Instr} {s t : State} (h : exec i s = .next t) (hrun : s.run = .running)
    (hc : fatalCause i = none) : t.run ≠ .faulted := by
  rw [exec_run h, hc, hrun]
  split <;> decide

/-- Settles O22: a fatal word makes the step the fetch followed by its decode fault, whose frames add up; with no fatal
word neither the fetch nor the instruction faults or writes a latch. -/
theorem decodeFaultsArePreciseAndOnlyThree : Obligations.DecodeFaultsArePreciseAndOnlyThree := by
  unfold Obligations.DecodeFaultsArePreciseAndOnlyThree
  intro s hrun
  rw [causeOfWord_eq_fatalCause, step_of_running hrun, State.fetch_instr]
  refine ⟨fun c hc => ?_, fun hc t hexec => ?_⟩
  · obtain ⟨t, hnext, hfaulted, hcause, -, hinstr, hregs, hpc, hcond, hcells, ⟨hinput, hout, hprompt, heof⟩, -⟩ :=
      exec_recordsFault s.fetch hc
    have hcellsRead : SameCells (s.afterRead s.pc) t := hcells
    have hinputRead : SameInput (s.afterRead s.pc) t := hinput
    refine ⟨t, hnext, hfaulted, hcause, hinstr, hpc.trans (word_add_one s.pc), fun r => (hregs r).trans (s.reg_fetch r),
      hcond.trans s.fetch_cond, hout.trans s.fetch_conOut,
      ⟨hprompt.trans s.fetch_inPrompt, heof.trans s.fetch_consoleEof⟩, hcellsRead, hinputRead, fun hne => ?_⟩
    rw [s.afterRead_of_ne hne] at hcellsRead hinputRead
    exact ⟨hcellsRead, hinputRead⟩
  · obtain ⟨hcause, hinstr⟩ := exec_latches hexec hc
    exact ⟨exec_run_ne_faulted hexec (s.fetch_run.trans hrun) hc, hcause.trans s.fetch_faultCause,
      hinstr.trans s.fetch_faultInstr⟩

end Sys2Proof.Machine
end

section
/-! PROOF. The canonical form of memory (log entry 1): the cells that a memory in it lists are those that hold another
word than 0x0000, so that the rising order leaves one list for them. -/

namespace Sys2Proof.Machine

/-- A cell before every listed one holds what is not listed. -/
theorem Memory.get_eq_zero_of_lt {m : Memory} {a : Nat} (h : ∀ c ∈ m, a < c.1) : Memory.get m a = 0x0000#16 := by
  induction m with
  | nil => rfl
  | cons c rest ih =>
    obtain ⟨ha, hrest⟩ := List.forall_mem_cons.1 h
    rw [Memory.get, if_neg ha.ne', ih hrest]

/-- In canonical form a cell is listed with the word it holds, unless that is 0x0000. -/
theorem Memory.mem_iff_get {m : Memory} (h : m.wf) (a : Nat) (v : Word) :
    (a, v) ∈ m ↔ Memory.get m a = v ∧ v ≠ 0x0000#16 := by
  induction m with
  | nil =>
    exact iff_of_false List.not_mem_nil fun ⟨hget, hv⟩ => hv hget.symm
  | cons c rest ih =>
    obtain ⟨k, w⟩ := c
    obtain ⟨hsorted, hlisted⟩ := h
    obtain ⟨hbelow, hsorted'⟩ := List.pairwise_cons.1 hsorted
    obtain ⟨⟨-, hw⟩, hlisted'⟩ := List.forall_mem_cons.1 hlisted
    have ih' := ih ⟨hsorted', hlisted'⟩
    rw [List.mem_cons, Prod.mk.injEq, ih', Memory.get]
    by_cases hk : k = a
    · subst hk
      have hzero := Memory.get_eq_zero_of_lt hbelow
      rw [if_pos rfl, hzero]
      constructor
      · rintro (⟨-, rfl⟩ | ⟨rfl, hv⟩)
        · exact ⟨rfl, hw⟩
        · exact absurd rfl hv
      · rintro ⟨rfl, -⟩
        exact .inl ⟨rfl, rfl⟩
    · simp [hk, Ne.symm hk]

/-- The number of an address is kept by the word of that number. -/
theorem toNat_word_ofNat {k : Nat} (hk : k < 65536) : (BitVec.ofNat 16 k).toNat = k :=
  (BitVec.toNat_ofNat k 16).trans (Nat.mod_eq_of_lt hk)

/-- A memory in canonical form lists what one that reads the same lists. -/
theorem Memory.mem_of_reads_alike {m n : Memory} (hm : m.wf) (hn : n.wf)
    (hget : ∀ a : Word, Memory.get m a.toNat = Memory.get n a.toNat) {c : Nat × Word} (hc : c ∈ m) : c ∈ n := by
  obtain ⟨haddr, -⟩ := hm.2 c hc
  have hread := hget (BitVec.ofNat 16 c.1)
  rw [toNat_word_ofNat haddr] at hread
  obtain ⟨hv, hne⟩ := (Memory.mem_iff_get hm c.1 c.2).1 hc
  exact (Memory.mem_iff_get hn c.1 c.2).2 ⟨hread.symm.trans hv, hne⟩

/-- Settles O14: both memories list the cells that hold another word than 0x0000, in rising order. -/
theorem memoriesThatReadAlikeAreEqual : Obligations.MemoriesThatReadAlikeAreEqual := by
  unfold Obligations.MemoriesThatReadAlikeAreEqual
  intro m n hm hn hget
  have hlist (c : Nat × Word) : c ∈ m ↔ c ∈ n :=
    ⟨Memory.mem_of_reads_alike hm hn hget, Memory.mem_of_reads_alike hn hm fun a => (hget a).symm⟩
  exact hm.1.eq_of_mem_iff hn.1 hlist

end Sys2Proof.Machine
end

section
/-! PROOF. The launch state (70_reset_and_hazards.md R160, R164): what a cell holds after an image has been written over a
memory. -/

namespace Sys2Proof.Machine

/-- A read of any word after a write. -/
theorem Memory.get_set_word (m : Memory) (a v b : Word) :
    Memory.get (Memory.set m a.toNat v) b.toNat = if a = b then v else Memory.get m b.toNat := by
  split
  · subst b; exact Memory.get_set_same m a.toNat v
  · exact Memory.get_set_ne m v fun e => ‹a ≠ b› (BitVec.eq_of_toNat_eq e.symm)

/-- An overlaid cell holds the last word the image gives for it, or what it held before. -/
theorem Memory.get_overlay (m : Memory) (image : List (Word × Word)) (a : Word) :
    Memory.get (Memory.overlay m image) a.toNat =
      ((image.reverse.find? (fun c => decide (c.1 = a))).map Prod.snd).getD (Memory.get m a.toNat) := by
  induction image using List.reverseRecOn with
  | nil => rfl
  | append_singleton earlier c ih =>
    have hlast : Memory.overlay m (earlier ++ [c]) = Memory.set (Memory.overlay m earlier) c.1.toNat c.2 :=
      List.foldl_append
    rw [hlast, Memory.get_set_word, ih, List.reverse_append, List.reverse_singleton, List.singleton_append,
      List.find?_cons]
    by_cases hc : c.1 = a <;> simp [hc]

/-- An image leaves the cells alone that it gives no word for. -/
theorem Memory.get_overlay_of_ne (m : Memory) {image : List (Word × Word)} {a : Word} (h : ∀ c ∈ image, c.1 ≠ a) :
    Memory.get (Memory.overlay m image) a.toNat = Memory.get m a.toNat := by
  have hnone : image.reverse.find? (fun c => decide (c.1 = a)) = none := by simpa using h
  rw [Memory.get_overlay, hnone]
  rfl

/-- Settles O59: reset lists no cell, and the image is overlaid on it; every other field is a parameter or that of reset. -/
theorem launchOverlaysTheImage : Obligations.LaunchOverlaysTheImage := by
  unfold Obligations.LaunchOverlaysTheImage
  intro p
  have hreg (r : Reg) : (State.launch p).reg r = State.reset.reg r := State.reg_congr rfl r
  obtain ⟨hzero, -⟩ := resetValuesOfTheManual
  exact ⟨rfl, fun a => Memory.get_overlay State.reset.mem p.image a, fun r => (hreg r).trans (hzero r), rfl, rfl, rfl, rfl,
    rfl, rfl, rfl, rfl, rfl, rfl⟩

end Sys2Proof.Machine
end

section
/-! PROOF. The image file (70_reset_and_hazards.md R164, R165): its bytes are those of its words, and the words after the
origin are laid out from there, each at an address of its own. -/

namespace Sys2Proof.Machine

@[simp] theorem highByte_bigEndianWord (hi lo : Byte) : highByte (bigEndianWord hi lo) = hi :=
  BitVec.extractLsb'_append_eq_left

@[simp] theorem lowByte_bigEndianWord (hi lo : Byte) : lowByte (bigEndianWord hi lo) = lo :=
  BitVec.extractLsb'_append_eq_right

/-- The words read from a byte stream give its bytes back. -/
theorem eq_flatMap_of_wordsOfBytes {bytes : List Byte} {ws : List Word} (h : wordsOfBytes bytes = some ws) :
    bytes = ws.flatMap fun w => [highByte w, lowByte w] := by
  induction bytes using wordsOfBytes.induct generalizing ws with
  | case1 => cases h; rfl
  | case2 => cases h
  | case3 hi lo rest ih =>
    obtain ⟨ws', hws', rfl⟩ := Option.map_eq_some_iff.1 h
    rw [List.flatMap_cons, highByte_bigEndianWord, lowByte_bigEndianWord, ← ih hws']
    rfl

/-- What the launch parameters of an image file are. -/
theorem LaunchParams.ofImageFile_eq_some {bytes : List Byte} {p : LaunchParams} (h : LaunchParams.ofImageFile bytes = some p) :
    ∃ origin words, wordsOfBytes bytes = some (origin :: words) ∧ words.length ≤ 65536 ∧ p.pcReset = origin ∧
      p.image = imageAt origin words := by
  unfold LaunchParams.ofImageFile at h
  split at h
  · next origin words hwords =>
    split_ifs at h with hlen
    cases h
    exact ⟨origin, words, hwords, by omega, rfl, rfl⟩
  · cases h

/-- The address of each word of a contiguous image is its place counted from the origin. -/
theorem exists_of_mem_imageAt {origin : Word} {words : List Word} {c : Word × Word} (h : c ∈ imageAt origin words) :
    ∃ k < words.length, c.1 = origin + BitVec.ofNat 16 k := by
  induction words generalizing origin with
  | nil => cases h
  | cons w rest ih =>
    rcases List.mem_cons.1 h with rfl | hrest
    · exact ⟨0, Nat.succ_pos _, (BitVec.add_zero origin).symm⟩
    · obtain ⟨k, hk, hc⟩ := ih hrest
      exact ⟨k + 1, Nat.succ_lt_succ hk, hc.trans (word_add_succ origin k).symm⟩

/-- Fewer than 65,536 words on, an address does not come round. -/
theorem word_add_ofNat_ne (a : Word) {k : Nat} (hpos : 0 < k) (hk : k < 65536) : a + BitVec.ofNat 16 k ≠ a := by
  intro h
  have hzero : (BitVec.ofNat 16 k).toNat = 0 := congrArg BitVec.toNat (by simpa using h)
  rw [toNat_word_ofNat hk] at hzero
  exact hpos.ne' hzero

/-- Each word of a contiguous image of at most 65,536 words stands at its place counted from the origin. -/
theorem Memory.get_overlay_imageAt (words : List Word) (m : Memory) (origin : Word) (hlen : words.length ≤ 65536) (k : Nat)
    (hk : k < words.length) :
    Memory.get (Memory.overlay m (imageAt origin words)) (origin + BitVec.ofNat 16 k).toNat = words[k] := by
  induction words generalizing m origin k with
  | nil => cases hk
  | cons w rest ih =>
    have hcons : Memory.overlay m (imageAt origin (w :: rest)) =
        Memory.overlay (Memory.set m origin.toNat w) (imageAt (origin + 0x0001#16) rest) := rfl
    rw [List.length_cons] at hlen hk
    rw [hcons]
    cases k with
    | zero =>
      have hapart : ∀ c ∈ imageAt (origin + 0x0001#16) rest, c.1 ≠ origin := by
        intro c hc
        obtain ⟨j, hj, hc⟩ := exists_of_mem_imageAt hc
        rw [hc, ← word_add_succ]
        exact word_add_ofNat_ne origin (Nat.succ_pos j) (by omega)
      rw [BitVec.add_zero, Memory.get_overlay_of_ne _ hapart]
      exact Memory.get_set_same m origin.toNat w
    | succ j =>
      rw [word_add_succ origin j]
      exact ih _ _ (by omega) j (by omega)

/-- Settles O60: the words of the file give its bytes back, the first is the origin, and the others are overlaid from
there on the memory of reset. -/
theorem imageFileIsLoadedFromItsOrigin : Obligations.ImageFileIsLoadedFromItsOrigin := by
  unfold Obligations.ImageFileIsLoadedFromItsOrigin
  intro bytes p hp
  obtain ⟨origin, words, hbytes, hlen, hpc, himage⟩ := LaunchParams.ofImageFile_eq_some hp
  refine ⟨origin, words, ?_, hpc, fun k hk => ?_⟩
  · simpa only [highByte_eq_ofNat, lowByte_eq_ofNat] using eq_flatMap_of_wordsOfBytes hbytes
  · have hmem : (State.launch p).mem = Memory.overlay State.reset.mem (imageAt origin words) := by rw [← himage]; rfl
    rw [State.cell, hmem]
    exact Memory.get_overlay_imageAt words _ origin hlen k hk

end Sys2Proof.Machine
end

section
/-! PROOF. The placement of a word for the next fetch (log entry 4). -/

namespace Sys2Proof.Machine

/-- The placement never leaves `pc` at the status register, where no stored word is executed. -/
theorem State.placeForFetch_pc_ne (s : State) (w : Word) : (s.placeForFetch w).pc ≠ kbsrAddr := by
  change (if s.pc = kbsrAddr then Config.pcReset else s.pc) ≠ kbsrAddr
  split
  · decide
  · assumption

/-- The placed word stands where the fetch reads. -/
theorem State.placeForFetch_cell_pc (s : State) (w : Word) :
    (s.placeForFetch w).cell (s.placeForFetch w).pc = w :=
  State.cell_setCell_same _ _ w

theorem State.withFetchWord_word (s : State) (w : Word) : s.withFetchWord 16 w.toNat = s.placeForFetch w := by
  rw [State.withFetchWord, Nat.mod_eq_of_lt w.isLt, BitVec.ofNat_toNat, BitVec.setWidth_eq]

/-- Settles O18: the placement puts the machine in RUNNING with the word at a `pc` where a fetch only latches and
increments. -/
theorem placedWordRunsNext : Obligations.PlacedWordRunsNext := by
  unfold Obligations.PlacedWordRunsNext
  intro s w
  have hfetch := (s.placeForFetch w).fetch_of_ne (s.placeForFetch_pc_ne w)
  have hrun : (s.placeForFetch w).run = .running := rfl
  have hinstr : (s.placeForFetch w).fetch.instr = w := by rw [hfetch, State.placeForFetch_cell_pc]
  have hinput : SameInput s (s.placeForFetch w).fetch := by rw [hfetch]; exact ⟨rfl, rfl, rfl, rfl, rfl⟩
  refine ⟨(s.placeForFetch w).fetch, ?_, hinstr, fun r => State.reg_fetch _ r, State.fetch_cond _, hinput,
    State.fetch_conOut _, State.fetch_inPrompt _, State.fetch_consoleEof _⟩
  rw [State.withFetchWord_word, step_of_running hrun, hinstr]

end Sys2Proof.Machine
end
